-- ==== Sys2Proof/Word.lean ====
section
/-! DEFINITION. The word types of the CHIP-8 execution engine (spec/00_scope.md R4, R6): every register, field and memory
cell is an unsigned value of a fixed width. -/

namespace Sys2Proof

/-- A memory cell, a general register, a timer, an immediate KK (R4). -/
abbrev Byte := BitVec 8

/-- An instruction word, the index register, the program counter, a call-stack entry (R4). -/
abbrev Word := BitVec 16

/-- An absolute address NNN as an instruction carries it (R55). -/
abbrev Addr := BitVec 12

/-- A sprite height N as an instruction carries it (R55, R56: a 4-bit count). -/
abbrev Nibble := BitVec 4

end Sys2Proof
end

