-- ==== Sys2Proof/Syntax.lean ====
section
/-! DEFINITION. The 34 instructions (spec/30_encoding.md R57, R64; spec/opcode_table.json), one constructor per row of the
table. The constructor names follow the assembler names of R64; the hexadecimal pattern of each row stands in its
docstring and is what `Instr.mnemonic` answers. The operand types carry their own bounds, so every term is an
instruction of the set. -/

namespace Sys2Proof

/-- A register number X or Y: V[0x0] to V[0xF] (R14, R55). -/
abbrev Reg := Fin 16

/-- A keypad index, 0x0 to 0xF (spec/10_state.md R26). -/
abbrev Key := Fin 16

/-- The closed instruction set (R62): one constructor per row of spec/opcode_table.json, in the table's order. -/
inductive Instr where
  /-- 00E0, `CLS`: clear the display. -/
  | cls
  /-- 00EE, `RET`: return from subroutine. -/
  | ret
  /-- 1NNN, `JP addr`: jump. -/
  | jp (nnn : Addr)
  /-- 2NNN, `CALL addr`: call subroutine. -/
  | call (nnn : Addr)
  /-- 3XKK, `SE Vx, byte`: skip if equal to immediate. -/
  | seByte (x : Reg) (kk : Byte)
  /-- 4XKK, `SNE Vx, byte`: skip if not equal to immediate. -/
  | sneByte (x : Reg) (kk : Byte)
  /-- 5XY0, `SE Vx, Vy`: skip if registers equal. -/
  | seReg (x y : Reg)
  /-- 6XKK, `LD Vx, byte`: load immediate. -/
  | ldByte (x : Reg) (kk : Byte)
  /-- 7XKK, `ADD Vx, byte`: add immediate. -/
  | addByte (x : Reg) (kk : Byte)
  /-- 8XY0, `LD Vx, Vy`: register copy. -/
  | ldReg (x y : Reg)
  /-- 8XY1, `OR Vx, Vy`. -/
  | orReg (x y : Reg)
  /-- 8XY2, `AND Vx, Vy`. -/
  | andReg (x y : Reg)
  /-- 8XY3, `XOR Vx, Vy`. -/
  | xorReg (x y : Reg)
  /-- 8XY4, `ADD Vx, Vy`: add with carry out. -/
  | addReg (x y : Reg)
  /-- 8XY5, `SUB Vx, Vy`: subtract. -/
  | subReg (x y : Reg)
  /-- 8XY6, `SHR Vx, Vy`: shift right with capture; Y is encoded and not read (R64, R98). -/
  | shrReg (x y : Reg)
  /-- 8XY7, `SUBN Vx, Vy`: reverse subtract. -/
  | subnReg (x y : Reg)
  /-- 8XYE, `SHL Vx, Vy`: shift left with capture; Y is encoded and not read (R64, R100). -/
  | shlReg (x y : Reg)
  /-- 9XY0, `SNE Vx, Vy`: skip if registers differ. -/
  | sneReg (x y : Reg)
  /-- ANNN, `LD I, addr`: load index. -/
  | ldI (nnn : Addr)
  /-- BNNN, `JP V0, addr`: jump with offset V[0]. -/
  | jpV0 (nnn : Addr)
  /-- CXKK, `RND Vx, byte`: random byte under mask. -/
  | rnd (x : Reg) (kk : Byte)
  /-- DXYN, `DRW Vx, Vy, nibble`: draw sprite. -/
  | drw (x y : Reg) (n : Nibble)
  /-- EX9E, `SKP Vx`: skip if key pressed. -/
  | skp (x : Reg)
  /-- EXA1, `SKNP Vx`: skip if key not pressed. -/
  | sknp (x : Reg)
  /-- FX07, `LD Vx, DT`: read delay timer. -/
  | ldVxDt (x : Reg)
  /-- FX0A, `LD Vx, K`: wait for a key. -/
  | ldVxK (x : Reg)
  /-- FX15, `LD DT, Vx`: set delay timer. -/
  | ldDtVx (x : Reg)
  /-- FX18, `LD ST, Vx`: set sound timer. -/
  | ldStVx (x : Reg)
  /-- FX1E, `ADD I, Vx`: add register to index. -/
  | addIVx (x : Reg)
  /-- FX29, `LD F, Vx`: point index at a font glyph. -/
  | ldFVx (x : Reg)
  /-- FX33, `LD B, Vx`: binary-coded decimal digits. -/
  | ldBVx (x : Reg)
  /-- FX55, `LD [I], Vx`: store V[0] to V[X]. -/
  | ldMemVx (x : Reg)
  /-- FX65, `LD Vx, [I]`: load V[0] to V[X]. -/
  | ldVxMem (x : Reg)
  deriving DecidableEq, Repr

/-- The instruction's name as the source and spec/opcode_table.json give it: its hexadecimal pattern (R10). -/
def Instr.mnemonic : Instr → String
  | .cls => "00E0"
  | .ret => "00EE"
  | .jp _ => "1NNN"
  | .call _ => "2NNN"
  | .seByte _ _ => "3XKK"
  | .sneByte _ _ => "4XKK"
  | .seReg _ _ => "5XY0"
  | .ldByte _ _ => "6XKK"
  | .addByte _ _ => "7XKK"
  | .ldReg _ _ => "8XY0"
  | .orReg _ _ => "8XY1"
  | .andReg _ _ => "8XY2"
  | .xorReg _ _ => "8XY3"
  | .addReg _ _ => "8XY4"
  | .subReg _ _ => "8XY5"
  | .shrReg _ _ => "8XY6"
  | .subnReg _ _ => "8XY7"
  | .shlReg _ _ => "8XYE"
  | .sneReg _ _ => "9XY0"
  | .ldI _ => "ANNN"
  | .jpV0 _ => "BNNN"
  | .rnd _ _ => "CXKK"
  | .drw _ _ _ => "DXYN"
  | .skp _ => "EX9E"
  | .sknp _ => "EXA1"
  | .ldVxDt _ => "FX07"
  | .ldVxK _ => "FX0A"
  | .ldDtVx _ => "FX15"
  | .ldStVx _ => "FX18"
  | .addIVx _ => "FX1E"
  | .ldFVx _ => "FX29"
  | .ldBVx _ => "FX33"
  | .ldMemVx _ => "FX55"
  | .ldVxMem _ => "FX65"

end Sys2Proof
end

