-- ==== Sys2Proof/Decode.lean ====
section
/-! DEFINITION. The decoder and the encoder (spec/30_encoding.md). The decoder follows the dispatch of R58 and R59 with
the literal digits of R60; the encoder follows the formats of R57. -/

namespace Sys2Proof

/-- OP = W[15:12], the family (R55). -/
def fieldOp (w : Word) : BitVec 4 := w.extractLsb' 12 4

/-- X = W[11:8], a register number (R55). -/
def fieldX (w : Word) : Reg := (w.extractLsb' 8 4).toFin

/-- Y = W[7:4], a register number (R55). -/
def fieldY (w : Word) : Reg := (w.extractLsb' 4 4).toFin

/-- N = W[3:0] (R55). -/
def fieldN (w : Word) : Nibble := w.extractLsb' 0 4

/-- KK = W[7:0] (R55). -/
def fieldKK (w : Word) : Byte := w.extractLsb' 0 8

/-- NNN = W[11:0] (R55). -/
def fieldNNN (w : Word) : Addr := w.extractLsb' 0 12

/-- Family 0: the word must be exactly 0x00E0 or 0x00EE (R59, R60). -/
def decodeFamily0 (w : Word) : Option Instr :=
  if w = 0x00E0 then some .cls
  else if w = 0x00EE then some .ret
  else none

/-- Family 8, on N (R59). -/
def decodeFamily8 (w : Word) : Option Instr :=
  match fieldN w with
  | 0x0 => some (.ldReg (fieldX w) (fieldY w))
  | 0x1 => some (.orReg (fieldX w) (fieldY w))
  | 0x2 => some (.andReg (fieldX w) (fieldY w))
  | 0x3 => some (.xorReg (fieldX w) (fieldY w))
  | 0x4 => some (.addReg (fieldX w) (fieldY w))
  | 0x5 => some (.subReg (fieldX w) (fieldY w))
  | 0x6 => some (.shrReg (fieldX w) (fieldY w))
  | 0x7 => some (.subnReg (fieldX w) (fieldY w))
  | 0xE => some (.shlReg (fieldX w) (fieldY w))
  | _ => none

/-- Family E, on KK (R59). -/
def decodeFamilyE (w : Word) : Option Instr :=
  match fieldKK w with
  | 0x9E => some (.skp (fieldX w))
  | 0xA1 => some (.sknp (fieldX w))
  | _ => none

/-- Family F, on KK (R59). -/
def decodeFamilyF (w : Word) : Option Instr :=
  match fieldKK w with
  | 0x07 => some (.ldVxDt (fieldX w))
  | 0x0A => some (.ldVxK (fieldX w))
  | 0x15 => some (.ldDtVx (fieldX w))
  | 0x18 => some (.ldStVx (fieldX w))
  | 0x1E => some (.addIVx (fieldX w))
  | 0x29 => some (.ldFVx (fieldX w))
  | 0x33 => some (.ldBVx (fieldX w))
  | 0x55 => some (.ldMemVx (fieldX w))
  | 0x65 => some (.ldVxMem (fieldX w))
  | _ => none

/-- Families 5 and 9 have the literal low digit 0 (R60). -/
def whenLowDigitZero (w : Word) (ins : Instr) : Option Instr :=
  if fieldN w = 0 then some ins else none

/-- Decode a word: the primary dispatch on OP (R58); the last arm is family 0xF. Total (R66); `none` is an unknown word
(R61). -/
def decode (w : Word) : Option Instr :=
  match fieldOp w with
  | 0x0 => decodeFamily0 w
  | 0x1 => some (.jp (fieldNNN w))
  | 0x2 => some (.call (fieldNNN w))
  | 0x3 => some (.seByte (fieldX w) (fieldKK w))
  | 0x4 => some (.sneByte (fieldX w) (fieldKK w))
  | 0x5 => whenLowDigitZero w (.seReg (fieldX w) (fieldY w))
  | 0x6 => some (.ldByte (fieldX w) (fieldKK w))
  | 0x7 => some (.addByte (fieldX w) (fieldKK w))
  | 0x8 => decodeFamily8 w
  | 0x9 => whenLowDigitZero w (.sneReg (fieldX w) (fieldY w))
  | 0xA => some (.ldI (fieldNNN w))
  | 0xB => some (.jpV0 (fieldNNN w))
  | 0xC => some (.rnd (fieldX w) (fieldKK w))
  | 0xD => some (.drw (fieldX w) (fieldY w) (fieldN w))
  | 0xE => decodeFamilyE w
  | _ => decodeFamilyF w

/-- The instruction word of two consecutive bytes: the lower address is the high byte (R54, spec/20_memory.md R38). -/
def wordOfBytes (hi lo : Byte) : Word := hi ++ lo

/-- The high byte of a word, which stands at the lower address (R54). -/
def highByte (w : Word) : Byte := w.extractLsb' 8 8

/-- The low byte of a word (R54). -/
def lowByte (w : Word) : Byte := w.extractLsb' 0 8

/-- Why a list of bytes holds no instruction at its head. -/
inductive DecodeError where
  /-- Fewer than the two bytes every instruction takes (R53). -/
  | truncated
  /-- The word matches no row of the table (R61). -/
  | unknownInstruction (w : Word)
  deriving DecidableEq, Repr

/-- Decode the instruction at the head of a list of bytes and give back the rest. Every instruction takes exactly two
bytes (R53). -/
def decodeBytes : List Byte → Except DecodeError (Instr × List Byte)
  | hi :: lo :: rest =>
    match decode (wordOfBytes hi lo) with
    | some ins => .ok (ins, rest)
    | none => .error (.unknownInstruction (wordOfBytes hi lo))
  | _ => .error .truncated

/-- Format NNN: `oooo nnnn nnnn nnnn` (R57). -/
def formatNNN (op : BitVec 4) (nnn : Addr) : Word := op ++ nnn

/-- Format XKK: `oooo xxxx kkkk kkkk` (R57). -/
def formatXKK (op : BitVec 4) (x : Reg) (kk : Byte) : Word := op ++ BitVec.ofFin (w := 4) x ++ kk

/-- Formats XY and XYN: `oooo xxxx yyyy oooo` and `oooo xxxx yyyy nnnn` (R57). -/
def formatXYN (op : BitVec 4) (x y : Reg) (n : BitVec 4) : Word :=
  op ++ BitVec.ofFin (w := 4) x ++ BitVec.ofFin (w := 4) y ++ n

/-- The word of an instruction, from the formats of R57 and the patterns of spec/opcode_table.json. -/
def encode : Instr → Word
  | .cls => 0x00E0
  | .ret => 0x00EE
  | .jp nnn => formatNNN 0x1 nnn
  | .call nnn => formatNNN 0x2 nnn
  | .seByte x kk => formatXKK 0x3 x kk
  | .sneByte x kk => formatXKK 0x4 x kk
  | .seReg x y => formatXYN 0x5 x y 0x0
  | .ldByte x kk => formatXKK 0x6 x kk
  | .addByte x kk => formatXKK 0x7 x kk
  | .ldReg x y => formatXYN 0x8 x y 0x0
  | .orReg x y => formatXYN 0x8 x y 0x1
  | .andReg x y => formatXYN 0x8 x y 0x2
  | .xorReg x y => formatXYN 0x8 x y 0x3
  | .addReg x y => formatXYN 0x8 x y 0x4
  | .subReg x y => formatXYN 0x8 x y 0x5
  | .shrReg x y => formatXYN 0x8 x y 0x6
  | .subnReg x y => formatXYN 0x8 x y 0x7
  | .shlReg x y => formatXYN 0x8 x y 0xE
  | .sneReg x y => formatXYN 0x9 x y 0x0
  | .ldI nnn => formatNNN 0xA nnn
  | .jpV0 nnn => formatNNN 0xB nnn
  | .rnd x kk => formatXKK 0xC x kk
  | .drw x y n => formatXYN 0xD x y n
  | .skp x => formatXKK 0xE x 0x9E
  | .sknp x => formatXKK 0xE x 0xA1
  | .ldVxDt x => formatXKK 0xF x 0x07
  | .ldVxK x => formatXKK 0xF x 0x0A
  | .ldDtVx x => formatXKK 0xF x 0x15
  | .ldStVx x => formatXKK 0xF x 0x18
  | .addIVx x => formatXKK 0xF x 0x1E
  | .ldFVx x => formatXKK 0xF x 0x29
  | .ldBVx x => formatXKK 0xF x 0x33
  | .ldMemVx x => formatXKK 0xF x 0x55
  | .ldVxMem x => formatXKK 0xF x 0x65

/-- An instruction's two bytes as memory holds them, lower address first (R54). -/
def encodeBytes (ins : Instr) : List Byte := [highByte (encode ins), lowByte (encode ins)]

/-- The 16-bit word an opcode-table number stands for: bit 0 is the word's least significant bit, and every bit from
`nbits` up is zero. -/
def tableWord (nbits w : Nat) : Word := BitVec.ofNat 16 (w % 2 ^ nbits)

/-- The host's view of the decoder: the instruction read from the table's number, laid out as two bytes of memory. -/
def decodeTableWord (nbits w : Nat) : Option Instr :=
  match decodeBytes [highByte (tableWord nbits w), lowByte (tableWord nbits w)] with
  | .ok (ins, _) => some ins
  | .error _ => none

end Sys2Proof
end

