-- ==== Sys2Proof/Config.lean ====
section
/-! DEFINITION. What is fixed for the machine and does not change as it runs: the sizes the spec fixes
(spec/00_scope.md R4) and the two things it leaves open (R5), which are constants with no body, so that no proof can lean
on a value of theirs. -/

namespace Sys2Proof

/-- 4096 memory cells, addresses 0 to 4095 (R4, spec/20_memory.md R34). -/
def Config.memSize : Nat := 4096

/-- FONT_BASE: the font region starts here (R4). -/
def Config.fontBase : Nat := 0x50

/-- The font region holds 80 bytes, 16 glyphs of 5 (R4, spec/20_memory.md R36). -/
def Config.fontSize : Nat := 80

/-- PROG_BASE: programs are loaded here, and reset sets pc here (R4). -/
def Config.progBase : Nat := 0x200

/-- MAX_ROM: the largest program, 4096 - 0x200 = 3584 bytes (R4). -/
def Config.maxRom : Nat := 3584

/-- The call stack's depth (R4). -/
def Config.stackDepth : Nat := 16

/-- FONT (R5; decision D24 leaves it OPEN): byte `k` of the font table, for `k` from 0 to 79, glyph `d` at `5 * d`.
FREE VALUE, log entry 3: it has no body, and a statement that mentions it holds for every table. -/
opaque Config.font : Nat → Byte

/-- The entropy source (R5, spec/10_state.md R28, R29; decision D19): the byte of the `k`-th free draw, made when the host
issues a CYCLE without giving its byte. FREE VALUE, log entry 1: it has no body and no law. -/
opaque Config.rnd : Nat → Byte

end Sys2Proof
end

