-- ==== Sys2Proof/Machine/State.lean ====
section
/-! DEFINITION. The Machine State of spec/10_state.md as plain data, the reasons an operation can fail
(spec/60_exceptions.md R123, R124), the host's operations (R131) as data, and the state after reset (R30). -/

namespace Sys2Proof.Machine

/-- Memory as address and byte pairs: addresses strictly rising, and no entry equal to what an unlisted address reads as
(`Memory.wf` in Sys2Proof/Machine/Ops.lean). -/
abbrev Memory := List Host.Cell

/-- One row of the framebuffer: 64 pixels, column 0 first (R25). -/
abbrev PixelRow := Vector Bool 64

/-- The operations the host may issue (spec/60_exceptions.md R131), as the state's list holds them. -/
inductive HostOp where
  /-- RESET (R132). -/
  | reset
  /-- CYCLE with its input byte (R133). -/
  | cycle (rnd : Byte)
  /-- TICK (R135). -/
  | tick
  /-- LOAD of a program's bytes (R136). -/
  | load (bytes : List Byte)
  /-- KEY_SET of key `k` to pressed or not (R137). -/
  | keySet (k : Key) (pressed : Bool)
  deriving DecidableEq, Repr

/-- The failure kinds of R123 with the report of R124. All are SAFE: the operation leaves the state as it was (R125), and
the model stops where the host may go on from that same state (log entry 6). -/
inductive Fault where
  /-- UnknownInstruction, code 1: raised by CYCLE when the fetched word matches no row (R61, R70). Safe. -/
  | unknownInstruction (pc word : Word)
  /-- StackUnderflow, code 2: raised by 00EE with SP = 0 (R79). Safe. -/
  | stackUnderflow (pc word : Word)
  /-- StackOverflow, code 3: raised by 2NNN with SP = 16 (R81). Safe. -/
  | stackOverflow (pc word : Word)
  /-- OutOfBounds, code 4: raised with no word by a fetch outside 0x200 to 4094 (R68); with the word by DXYN, FX33, FX55,
  FX65 (R40, R113), by EX9E and EXA1 with V[X] > 15 (R117, R118), and, in states with SP > 16 that no run reaches, by
  00EE and 2NNN (log entry 4). Safe. -/
  | outOfBounds (pc : Word) (word : Option Word)
  /-- RomTooLarge, code 5: raised by LOAD of more than 3584 bytes; it carries no pc and no word (R136). Safe. -/
  | romTooLarge
  deriving DecidableEq, Repr

/-- Why an instruction has no meaning. No arm of `exec` answers with it: every row of the table is modelled. -/
inductive Refusal where
  /-- The instruction has no meaning yet: raised by nobody in this model. Safe. -/
  | notModelled (mnemonic : String)
  deriving DecidableEq, Repr

/-- The Machine State (R13), with three fields of the model's own at the end. -/
structure State where
  /-- General registers V[0x0] to V[0xF] (R14). -/
  v : Vector Byte 16
  /-- The index register I (R17). -/
  index : Word
  /-- The program counter (R18). -/
  pc : Word
  /-- The stack pointer SP, an 8-bit counter with legal values 0 to 16 (R20). -/
  sp : Byte
  /-- The call stack STACK[0] to STACK[15] (R21). -/
  stack : Vector Word 16
  /-- The delay timer DT (R22). -/
  dt : Byte
  /-- The sound timer ST (R23). -/
  st : Byte
  /-- The framebuffer, row 0 first; `true` is on (R25). -/
  fb : Vector PixelRow 32
  /-- The keypad; `true` is pressed (R26). -/
  keys : Vector Bool 16
  /-- Memory (spec/20_memory.md R34). -/
  mem : Memory
  /-- The model's own: the input byte of the current CYCLE (spec/40_cycle.md R67, R74) where the host's list gives it;
  `none` is a free draw. Written at the start of every CYCLE and read by CXKK alone (log entry 1). -/
  rnd : Option Byte
  /-- The model's own: how many free draws have been made, so that each is a fresh FREE VALUE (log entry 1). -/
  draws : Nat
  /-- The model's own: the operations the host issues next, oldest first. Empty means that the host issues CYCLE with a
  free byte (log entry 2). -/
  hostOps : List HostOp
  deriving DecidableEq, Repr

/-- What an operation answers. -/
abbrev Result := Host.Outcome State Fault Refusal

/-- The state after construction or RESET (R30, spec/70_reset_and_hazards.md R145). Memory lists nothing: an unlisted
address reads as the reset contents, the font included. `rnd`, `draws` and `hostOps` are the model's own (log entries 1
and 2). -/
def State.reset : State where
  v := Vector.replicate 16 0
  index := 0
  pc := 0x200
  sp := 0
  stack := Vector.replicate 16 0
  dt := 0
  st := 0
  fb := Vector.replicate 32 (Vector.replicate 64 false)
  keys := Vector.replicate 16 false
  mem := []
  rnd := none
  draws := 0
  hostOps := []

end Sys2Proof.Machine
end

