-- ==== Sys2Proof/Machine/Ops.lean ====
section
/-! DEFINITION. The named operations over memory, registers, the call stack, the framebuffer and the keypad, the fetch,
and failing: the one shared operation that every instruction's failure goes through. -/

namespace Sys2Proof.Machine

/-! ### Memory (spec/20_memory.md) -/

/-- What an address that nothing has written reads as: the reset contents of R30, FONT in 0x050 to 0x09F and zero
elsewhere. -/
def Memory.unlisted (a : Nat) : Byte :=
  if Config.fontBase ≤ a ∧ a < Config.fontBase + Config.fontSize then Config.font (a - Config.fontBase) else 0

/-- The entry listed for an address, if there is one. -/
def Memory.find (a : Nat) : Memory → Option Byte
  | [] => none
  | cell :: rest => if cell.1 = a then some cell.2 else Memory.find a rest

/-- The byte in cell `a`. -/
def Memory.get (m : Memory) (a : Nat) : Byte :=
  match Memory.find a m with
  | some b => b
  | none => Memory.unlisted a

/-- List `b` at address `a`, keeping the addresses rising. -/
def Memory.insert (a : Nat) (b : Byte) : Memory → Memory
  | [] => [(a, b)]
  | cell :: rest =>
    if a < cell.1 then (a, b) :: cell :: rest
    else if a = cell.1 then (a, b) :: rest
    else cell :: Memory.insert a b rest

/-- List nothing at address `a`. -/
def Memory.erase (a : Nat) (m : Memory) : Memory := m.filter fun cell => cell.1 != a

/-- Put `b` in cell `a`, keeping the canonical form: a byte equal to the unlisted one is not listed. -/
def Memory.put (m : Memory) (a : Nat) (b : Byte) : Memory :=
  if b = Memory.unlisted a then Memory.erase a m else Memory.insert a b m

/-- The canonical form: addresses strictly rising, every address a cell of the machine, no entry equal to what its
address reads as unlisted. -/
abbrev Memory.wf (m : Memory) : Prop :=
  m.Pairwise (fun c d => c.1 < d.1) ∧ ∀ c ∈ m, c.1 < Config.memSize ∧ c.2 ≠ Memory.unlisted c.1

/-- `MemRead(a, 1)` (R40): `none` is OutOfBounds, for an address above 4095. -/
def State.load (s : State) (a : Nat) : Option Byte :=
  if a < Config.memSize then some (s.mem.get a) else none

/-- `MemWrite(a, 1, b)` (R40): `none` is OutOfBounds, for an address above 4095. Every cell is writable (R42). -/
def State.store (s : State) (a : Nat) (b : Byte) : Option State :=
  if a < Config.memSize then some { s with mem := s.mem.put a b } else none

/-- Copy bytes into consecutive cells from address `a` on, unchecked: the loader's copy (spec/60_exceptions.md R136). -/
def Memory.putBytes (a : Nat) : List Byte → Memory → Memory
  | [], m => m
  | b :: rest, m => Memory.putBytes (a + 1) rest (m.put a b)

/-! ### General registers (spec/10_state.md R14, R15) -/

/-- VF, the same register as V[0xF] (R15). -/
def vf : Reg := 15

/-- Read V[x]. -/
def State.reg (s : State) (x : Reg) : Byte := s.v[x]

/-- Write V[x]. -/
def State.setReg (s : State) (x : Reg) (b : Byte) : State := { s with v := s.v.set x b }

/-! ### The program counter and the index register (R17 to R19) -/

/-- Write pc. -/
def State.setPc (s : State) (p : Word) : State := { s with pc := p }

/-- Write I. -/
def State.setIndex (s : State) (a : Word) : State := { s with index := a }

/-- The skip mechanism (spec/41_flow.md R82): pass over one word when the condition holds. -/
def State.skipIf (c : Bool) (s : State) : State := if c then s.setPc (s.pc + 2) else s

/-! ### The call stack (R20, R21) -/

/-- Push a return address and increment SP (spec/41_flow.md R81); `none` when `STACK[SP]` does not exist. -/
def State.push (s : State) (a : Word) : Option State :=
  if h : s.sp.toNat < Config.stackDepth then
    some { s with stack := s.stack.set s.sp.toNat a h, sp := s.sp + 1 }
  else none

/-- Decrement SP and give the entry then at `STACK[SP]`, which is left in place (R79); `none` when it does not exist. -/
def State.pop (s : State) : Option (Word × State) :=
  if h : (s.sp - 1).toNat < Config.stackDepth then
    some (s.stack[(s.sp - 1).toNat]'h, { s with sp := s.sp - 1 })
  else none

/-! ### Timers (R22, R23) -/

/-- Write DT. -/
def State.setDt (s : State) (b : Byte) : State := { s with dt := b }

/-- Write ST. -/
def State.setSt (s : State) (b : Byte) : State := { s with st := b }

/-! ### The framebuffer (R25) -/

/-- Read `FB[y][x]`. -/
def State.pixel (s : State) (y : Fin 32) (x : Fin 64) : Bool := s.fb[y][x]

/-- Write `FB[y][x]`. -/
def State.setPixel (s : State) (y : Fin 32) (x : Fin 64) (on : Bool) : State :=
  { s with fb := s.fb.set y (s.fb[y].set x on) }

/-- Every pixel off. -/
def State.clearDisplay (s : State) : State :=
  { s with fb := Vector.replicate 32 (Vector.replicate 64 false) }

/-! ### The keypad (R26) -/

/-- Key `k` is pressed. -/
def State.keyPressed (s : State) (k : Key) : Bool := s.keys[k]

/-- The keys in ascending order (spec/45_keys_timers.md R120). -/
def allKeys : List Key := [0, 1, 2, 3, 4, 5, 6, 7, 8, 9, 10, 11, 12, 13, 14, 15]

/-- The lowest pressed key: the first match in ascending order (R120). -/
def State.lowestKey (s : State) : Option Key := allKeys.find? s.keyPressed

/-! ### Fetch (spec/40_cycle.md R67 to R69) -/

/-- The fetch range check (R68): `0x200 ≤ P ≤ 4094`. -/
abbrev FetchLegal (p : Word) : Prop := Config.progBase ≤ p.toNat ∧ p.toNat + 1 < Config.memSize

/-- Fetch the word at pc (R69): the byte at P is the high byte; `none` when the range check fails. -/
def State.fetchWord (s : State) : Option Word :=
  if FetchLegal s.pc then
    match s.load s.pc.toNat, s.load (s.pc.toNat + 1) with
    | some hi, some lo => some (wordOfBytes hi lo)
    | _, _ => none
  else none

/-- Begin a cycle: take its input byte, given or free (R67), and advance pc past the instruction, before dispatch
(R69). -/
def State.beginCycle (s : State) (rnd : Option Byte) : State := { s with rnd := rnd, pc := s.pc + 2 }

/-- Count a free draw, before the cycle that may read it: each counted draw is a fresh one, and no law ties it to another
(R74; decision D19; log entry 1). -/
def State.nextDraw (s : State) : State := { s with draws := s.draws + 1 }

/-- The current cycle's input byte (R67, R74): the one the host gave, or the FREE VALUE of the current draw, which has no
body and no law (log entry 1; decision D19). That two states with equal `draws`, and so two runs from `State.reset`, read
the same free bytes is the model's choice and no fact of the engine (DESIGN CHOICE, log entry 1): one deterministic step
needs its draws in the state, and R74 ties no two runs together. -/
def State.inputByte (s : State) : Byte :=
  match s.rnd with
  | some b => b
  | none => Config.rnd s.draws

/-! ### Failing (spec/60_exceptions.md R124, R125)

The engine has no trap entry and no return from one (R127, R128): a failure ends the operation, and its outcome is the
only record. -/

/-- Fail the handler of `ins`: the outcome carries P, which is pc less the advance of R69, and the instruction's word. The
state is not part of the outcome: it is the one before the operation (R125). -/
def fail (report : Word → Word → Fault) (ins : Instr) (s : State) : Result :=
  .fault (report (s.pc - 2) (encode ins))

/-- OutOfBounds as a handler reports it, with the instruction's word (R124). -/
def outOfBoundsAt (pc word : Word) : Fault := .outOfBounds pc (some word)

/-- Finish a handler whose only failure is OutOfBounds (R126): `s` is the state it began in. -/
def orOutOfBounds (ins : Instr) (s : State) : Option State → Result
  | some t => .next t
  | none => fail outOfBoundsAt ins s

end Sys2Proof.Machine
end

