-- ==== Sys2Proof/Machine/Flags.lean ====
section
/-! DEFINITION. The values VF takes (spec/42_alu.md R96 to R100, R103) and the order in which a flag-writing instruction
writes its flag and its result (spec/00_scope.md R8). -/

namespace Sys2Proof.Machine

/-- A flag as the byte VF holds: 1 or 0. -/
def flagByte (c : Bool) : Byte := if c then 1 else 0

/-- The 9-bit sum of two bytes (R96: `zext_9(V[X]) + zext_9(V[Y])`). -/
def wideSum (a b : Byte) : BitVec 9 := a.setWidth 9 + b.setWidth 9

/-- 8XY4's flag: the carry out of bit 7 (R96). -/
def carryFlag (a b : Byte) : Byte := flagByte (decide ((wideSum a b).toNat > 255))

/-- 8XY5's and 8XY7's flag: strictly greater, 0 at equality (R97, R99). -/
def greaterFlag (a b : Byte) : Byte := flagByte (decide (a.toNat > b.toNat))

/-- 8XY6's flag: bit 0 before the shift (R98). -/
def lowBitFlag (a : Byte) : Byte := flagByte (a.getLsbD 0)

/-- 8XYE's flag: bit 7 before the shift (R100). -/
def highBitFlag (a : Byte) : Byte := flagByte (a.getLsbD 7)

/-- Write VF first and the result after it: `result` reads the state in which the flag stands, so an operand that is VF
reads the flag just written, and a destination that is VF overwrites it (R8; decision D2). -/
def flagThenResult (flag : Byte) (x : Reg) (result : State → Byte) (s : State) : State :=
  (s.setReg vf flag).setReg x (result (s.setReg vf flag))

end Sys2Proof.Machine
end

