-- ==== Sys2Proof/Machine/Alu.lean ====
section
/-! DEFINITION. Register arithmetic, logic, shifts and random (spec/42_alu.md). None of these fails, and none changes pc
beyond the advance. -/

namespace Sys2Proof.Machine

/-- 6XKK (R90). -/
def execLdByte (x : Reg) (kk : Byte) (s : State) : Result := .next (s.setReg x kk)

/-- 7XKK (R91): modulo 256, no flag. -/
def execAddByte (x : Reg) (kk : Byte) (s : State) : Result := .next (s.setReg x (s.reg x + kk))

/-- 8XY0 (R92). -/
def execLdReg (x y : Reg) (s : State) : Result := .next (s.setReg x (s.reg y))

/-- 8XY1 (R93): VF is left alone. -/
def execOrReg (x y : Reg) (s : State) : Result := .next (s.setReg x (s.reg x ||| s.reg y))

/-- 8XY2 (R94): VF is left alone. -/
def execAndReg (x y : Reg) (s : State) : Result := .next (s.setReg x (s.reg x &&& s.reg y))

/-- 8XY3 (R95): VF is left alone. -/
def execXorReg (x y : Reg) (s : State) : Result := .next (s.setReg x (s.reg x ^^^ s.reg y))

/-- 8XY4 (R96): the sum is computed before VF is written; the low byte is written last. -/
def execAddReg (x y : Reg) (s : State) : Result :=
  .next (flagThenResult (carryFlag (s.reg x) (s.reg y)) x (fun _ => (wideSum (s.reg x) (s.reg y)).setWidth 8) s)

/-- 8XY5 (R97): both operands are read again after the flag write. -/
def execSubReg (x y : Reg) (s : State) : Result :=
  .next (flagThenResult (greaterFlag (s.reg x) (s.reg y)) x (fun t => t.reg x - t.reg y) s)

/-- 8XY6 (R98): a logical shift by one of V[X] as it stands after the flag write; Y is not read. -/
def execShrReg (x _y : Reg) (s : State) : Result :=
  .next (flagThenResult (lowBitFlag (s.reg x)) x (fun t => t.reg x >>> 1) s)

/-- 8XY7 (R99): both operands are read again after the flag write. -/
def execSubnReg (x y : Reg) (s : State) : Result :=
  .next (flagThenResult (greaterFlag (s.reg y) (s.reg x)) x (fun t => t.reg y - t.reg x) s)

/-- 8XYE (R100): a shift by one of V[X] as it stands after the flag write; Y is not read. -/
def execShlReg (x _y : Reg) (s : State) : Result :=
  .next (flagThenResult (highBitFlag (s.reg x)) x (fun t => t.reg x <<< 1) s)

/-- CXKK (R101): the cycle's input byte under the mask; a FREE VALUE (log entry 1). -/
def execRnd (x : Reg) (kk : Byte) (s : State) : Result := .next (s.setReg x (s.inputByte &&& kk))

end Sys2Proof.Machine
end

