-- ==== Sys2Proof/Machine/Operands.lean ====
section
/-! DEFINITION. The operand forms (spec/30_encoding.md R56, spec/20_memory.md R41): zero extension, the effective address,
the register range of the block transfers, the key index, the font glyph address, the sprite origin, the decimal digits. -/

namespace Sys2Proof.Machine

/-- `zext_16(NNN)` (R56): no sign extension anywhere. -/
def zext16 {n : Nat} (b : BitVec n) : Word := b.setWidth 16

/-- The effective address `I + k`, on naturals and without wrap (R41). -/
def State.effAddr (s : State) (k : Nat) : Nat := s.index.toNat + k

/-- All register numbers in ascending order. -/
def allRegs : List Reg := [0, 1, 2, 3, 4, 5, 6, 7, 8, 9, 10, 11, 12, 13, 14, 15]

/-- The registers V[0] to V[X] inclusive, ascending (spec/43_index_memory.md R109, R110). -/
def regsUpTo (x : Reg) : List Reg := allRegs.take (x.val + 1)

/-- A register's value as a key index; `none` above 15 (spec/45_keys_timers.md R117; decision D11). -/
def keyOf (b : Byte) : Option Key := if h : b.toNat < 16 then some ⟨b.toNat, h⟩ else none

/-- The address of a glyph: FONT_BASE + 5 × V[X], the whole byte (spec/43_index_memory.md R107; decision D12). -/
def glyphAddr (b : Byte) : Word := BitVec.ofNat 16 Config.fontBase + 5 * zext16 b

/-- The sprite's origin column, V[X] mod 64 (spec/44_display.md R113). -/
def originColumn (b : Byte) : Nat := b.toNat % 64

/-- The sprite's origin row, V[Y] mod 32 (R113). -/
def originRow (b : Byte) : Nat := b.toNat % 32

/-- The hundreds digit of a byte (spec/43_index_memory.md R108). -/
def bcdHundreds (b : Byte) : Byte := b / 100

/-- The tens digit of a byte (R108). -/
def bcdTens (b : Byte) : Byte := b / 10 % 10

/-- The ones digit of a byte (R108). -/
def bcdOnes (b : Byte) : Byte := b % 10

end Sys2Proof.Machine
end

