-- ==== Sys2Proof/Machine/Display.lean ====
section
/-! DEFINITION. The display (spec/44_display.md): clear, and the sprite XOR compositor with collision detection, written as
the loops of R113. -/

namespace Sys2Proof.Machine

/-- 00E0 (R112). -/
def execCls (s : State) : Result := .next s.clearDisplay

/-- A set sprite bit lands on column `x`, row `y`: OutOfBounds (`none`) off-screen; else VF <- 1 if the pixel is on, and the
pixel is toggled (R113). -/
def drawPixel (x y : Nat) (s : State) : Option State :=
  if h : x < 64 ∧ y < 32 then
    let on := s.pixel ⟨y, h.2⟩ ⟨x, h.1⟩
    let t := if on then s.setReg vf 1 else s
    some (t.setPixel ⟨y, h.2⟩ ⟨x, h.1⟩ (!on))
  else none

/-- The columns `cols` of one sprite row: bit `7 - col` of the byte, most significant bit leftmost; a clear bit does
nothing, even off-screen (R113; decision D8). -/
def drawColumns (row : Byte) (x y : Nat) : List Nat → State → Option State
  | [], s => some s
  | col :: rest, s =>
    if row.getLsbD (7 - col) then (drawPixel (x + col) y s).bind (drawColumns row x y rest)
    else drawColumns row x y rest s

/-- The rows `rows` of a sprite with origin (`x`, `y`): each reads its byte at I + row, OutOfBounds above 4095 whatever the
byte would hold (R113). -/
def drawRows (x y : Nat) : List Nat → State → Option State
  | [], s => some s
  | row :: rest, s =>
    (s.load (s.effAddr row)).bind fun b =>
      (drawColumns b x (y + row) (List.range 8) s).bind (drawRows x y rest)

/-- DXYN's loops from the origin: VF <- 0, then the rows 0 to N - 1 (R113). -/
def drawSprite (x y n : Nat) (s : State) : Option State := drawRows x y (List.range n) (s.setReg vf 0)

/-- DXYN (R113): the origin is taken from V[X] and V[Y] as they are on entry, before VF <- 0. -/
def execDrw (x y : Reg) (n : Nibble) (s : State) : Result :=
  orOutOfBounds (.drw x y n) s (drawSprite (originColumn (s.reg x)) (originRow (s.reg y)) n.toNat s)

end Sys2Proof.Machine
end

