-- ==== Sys2Proof/Machine/Flow.lean ====
section
/-! DEFINITION. Control transfer and skips (spec/41_flow.md). Every meaning starts in the state whose pc is already
P + 2 (spec/40_cycle.md R69). -/

namespace Sys2Proof.Machine

/-- 00EE (R79): StackUnderflow at SP = 0; else SP <- SP - 1 and pc <- STACK[SP]. With SP > 16, which no run reaches (R31),
the entry may not exist: OutOfBounds (log entry 4). -/
def execRet (s : State) : Result :=
  if s.sp = 0 then fail .stackUnderflow .ret s
  else orOutOfBounds .ret s (s.pop.map fun popped => popped.2.setPc popped.1)

/-- 1NNN (R80). -/
def execJp (nnn : Addr) (s : State) : Result := .next (s.setPc (zext16 nnn))

/-- 2NNN (R81): StackOverflow at SP = 16; else push the advanced pc and jump. With SP > 16, which no run reaches (R31), the
entry does not exist: OutOfBounds (log entry 4). -/
def execCall (nnn : Addr) (s : State) : Result :=
  if s.sp = 16 then fail .stackOverflow (.call nnn) s
  else orOutOfBounds (.call nnn) s ((s.push s.pc).map fun t => t.setPc (zext16 nnn))

/-- 3XKK (R83). -/
def execSeByte (x : Reg) (kk : Byte) (s : State) : Result := .next (s.skipIf (s.reg x == kk))

/-- 4XKK (R84). -/
def execSneByte (x : Reg) (kk : Byte) (s : State) : Result := .next (s.skipIf (s.reg x != kk))

/-- 5XY0 (R85). -/
def execSeReg (x y : Reg) (s : State) : Result := .next (s.skipIf (s.reg x == s.reg y))

/-- 9XY0 (R86). -/
def execSneReg (x y : Reg) (s : State) : Result := .next (s.skipIf (s.reg x != s.reg y))

/-- BNNN (R88): V[0] + NNN on 16 bits, no mask; the register is always V[0]. -/
def execJpV0 (nnn : Addr) (s : State) : Result := .next (s.setPc (zext16 (s.reg 0) + zext16 nnn))

end Sys2Proof.Machine
end

