-- ==== Sys2Proof/Machine/Index.lean ====
section
/-! DEFINITION. The index register, decimal digits, block store and block load (spec/43_index_memory.md). None of these
writes VF as a flag, and none but ANNN, FX1E and FX29 writes I (decision D21). -/

namespace Sys2Proof.Machine

/-- ANNN (R105). -/
def execLdI (nnn : Addr) (s : State) : Result := .next (s.setIndex (zext16 nnn))

/-- FX1E (R106): modulo 65536, no flag, no mask. -/
def execAddIVx (x : Reg) (s : State) : Result := .next (s.setIndex (s.index + zext16 (s.reg x)))

/-- FX29 (R107): no memory access and no failure. -/
def execLdFVx (x : Reg) (s : State) : Result := .next (s.setIndex (glyphAddr (s.reg x)))

/-- Store bytes at the effective addresses I + k, I + k + 1, …, in order; `none` is OutOfBounds. -/
def storeFrom (k : Nat) : List Byte → State → Option State
  | [], s => some s
  | b :: rest, s => (s.store (s.effAddr k) b).bind (storeFrom (k + 1) rest)

/-- Load registers from the effective addresses I + r, in order; `none` is OutOfBounds. -/
def loadRegs : List Reg → State → Option State
  | [], s => some s
  | r :: rest, s => (s.load (s.effAddr r.val)).bind fun b => loadRegs rest (s.setReg r b)

/-- FX33 (R108): hundreds, tens, ones at I, I + 1, I + 2. -/
def execLdBVx (x : Reg) (s : State) : Result :=
  orOutOfBounds (.ldBVx x) s (storeFrom 0 [bcdHundreds (s.reg x), bcdTens (s.reg x), bcdOnes (s.reg x)] s)

/-- FX55 (R109): V[0] to V[X] at I to I + X. -/
def execLdMemVx (x : Reg) (s : State) : Result :=
  orOutOfBounds (.ldMemVx x) s (storeFrom 0 ((regsUpTo x).map s.reg) s)

/-- FX65 (R110): V[0] to V[X] from I to I + X. -/
def execLdVxMem (x : Reg) (s : State) : Result := orOutOfBounds (.ldVxMem x) s (loadRegs (regsUpTo x) s)

end Sys2Proof.Machine
end

