-- ==== Sys2Proof/Machine/Keys.lean ====
section
/-! DEFINITION. The keypad and timer instructions (spec/45_keys_timers.md). -/

namespace Sys2Proof.Machine

/-- EX9E (R117): skip when key V[X] is pressed; OutOfBounds when V[X] > 15. -/
def execSkp (x : Reg) (s : State) : Result :=
  orOutOfBounds (.skp x) s ((keyOf (s.reg x)).map fun k => s.skipIf (s.keyPressed k))

/-- EXA1 (R118): skip when key V[X] is not pressed; OutOfBounds when V[X] > 15. -/
def execSknp (x : Reg) (s : State) : Result :=
  orOutOfBounds (.sknp x) s ((keyOf (s.reg x)).map fun k => s.skipIf (!s.keyPressed k))

/-- FX07 (R119). -/
def execLdVxDt (x : Reg) (s : State) : Result := .next (s.setReg x s.dt)

/-- FX0A (R120): the lowest pressed key, or pc rewound so that the same instruction runs again. -/
def execLdVxK (x : Reg) (s : State) : Result :=
  match s.lowestKey with
  | some k => .next (s.setReg x (BitVec.ofNat 8 k.val))
  | none => .next (s.setPc (s.pc - 2))

/-- FX15 (R121). -/
def execLdDtVx (x : Reg) (s : State) : Result := .next (s.setDt (s.reg x))

/-- FX18 (R122). -/
def execLdStVx (x : Reg) (s : State) : Result := .next (s.setSt (s.reg x))

end Sys2Proof.Machine
end

