-- ==== Sys2Proof/Machine/Cycle.lean ====
section
/-! DEFINITION. The block's operations (spec/40_cycle.md, spec/60_exceptions.md R131 to R140): CYCLE, RESET, TICK, LOAD,
KEY_SET, what the host reads, and which operation comes next. Each is atomic, and none overlaps another (R46, R47). -/

namespace Sys2Proof.Machine

/-! ### CYCLE -/

/-- `Cycle(rnd)` (R73): the fetch range check, the fetch and advance, decode, and the handler, failing in that order
(R126). The input byte is the host's, or with `none` a free draw. A failure's outcome is all that is left of the operation, so every write it made is undone (R72). -/
def cycle (rnd : Option Byte) (s : State) : Result :=
  match s.fetchWord with
  | none => .fault (.outOfBounds s.pc none)
  | some w =>
    match decode w with
    | none => .fault (.unknownInstruction s.pc w)
    | some ins => exec ins (s.beginCycle rnd)

/-! ### RESET, TICK, LOAD, KEY_SET -/

/-- RESET (R132): every part of the Machine State at its reset value, the font region included. The model's own fields are
not Machine State and stay: RESET does not constrain later draws (R29, R147), and the host's next operations are the
host's. -/
def State.resetMachine (s : State) : State :=
  { State.reset with rnd := s.rnd, draws := s.draws, hostOps := s.hostOps }

/-- A timer after one TICK: down by one, not below zero (R135). -/
def timerTick (t : Byte) : Byte := if t.toNat > 0 then t - 1 else t

/-- TICK (R135): both timers in one operation. -/
def State.tick (s : State) : State := { s with dt := timerTick s.dt, st := timerTick s.st }

/-- LOAD (R136): the bytes to 0x200 onward and nothing else; RomTooLarge over 3584 bytes. -/
def loadProgram (bytes : List Byte) (s : State) : Result :=
  if bytes.length > Config.maxRom then .fault .romTooLarge
  else .next { s with mem := Memory.putBytes Config.progBase bytes s.mem }

/-- KEY_SET (R137). -/
def State.setKey (s : State) (k : Key) (pressed : Bool) : State := { s with keys := s.keys.set k pressed }

/-- Perform one operation of the host (R131). -/
def perform (op : HostOp) (s : State) : Result :=
  match op with
  | .reset => .next s.resetMachine
  | .cycle rnd => cycle (some rnd) s
  | .tick => .next s.tick
  | .load bytes => loadProgram bytes s
  | .keySet k pressed => .next (s.setKey k pressed)

/-- The next operation of the host: the oldest of `hostOps`; with none listed, CYCLE with a fresh free byte (log entries 1
and 2; decisions D19, D27). -/
def nextOperation (s : State) : Result :=
  match s.hostOps with
  | [] => cycle none s.nextDraw
  | op :: rest => perform op { s with hostOps := rest }

/-! ### What the host reads (R138) -/

/-- The state after an operation: the one it gives, or the one before it when it fails (R125). -/
def State.after (op : HostOp) (s : State) : State :=
  match perform op s with
  | .next t => t
  | .fault _ => s
  | .refused _ => s

/-- The sound output (R140). -/
def State.soundOn (s : State) : Bool := s.st != 0

/-- A pixel in the source's 32-bit cell representation (spec/44_display.md R116). -/
def State.pixelCell (s : State) (y : Fin 32) (x : Fin 64) : BitVec 32 := if s.pixel y x then 0xFFFFFFFF else 0

/-- The number of a failure's kind (R123). -/
def faultCode : Fault → Nat
  | .unknownInstruction _ _ => 1
  | .stackUnderflow _ _ => 2
  | .stackOverflow _ _ => 3
  | .outOfBounds _ _ => 4
  | .romTooLarge => 5

/-- The pc a failure reports (R124); LOAD reports none. -/
def faultPc : Fault → Option Word
  | .unknownInstruction pc _ => some pc
  | .stackUnderflow pc _ => some pc
  | .stackOverflow pc _ => some pc
  | .outOfBounds pc _ => some pc
  | .romTooLarge => none

/-- The word a failure reports, if it reports one (R124). -/
def faultWord : Fault → Option Word
  | .unknownInstruction _ word => some word
  | .stackUnderflow _ word => some word
  | .stackOverflow _ word => some word
  | .outOfBounds _ word => word
  | .romTooLarge => none

/-! ### Placing an instruction for the next fetch -/

/-- The address an instruction is placed at: pc, or the program base where pc is no legal fetch address. -/
def placeAddr (p : Word) : Word := if FetchLegal p then p else 0x200

/-- Put a word where the next operation fetches its instruction, with no host operation before it. -/
def State.placeWord (s : State) (w : Word) : State :=
  { s with
    pc := placeAddr s.pc
    mem := Memory.putBytes (placeAddr s.pc).toNat [highByte w, lowByte w] s.mem
    hostOps := [] }

end Sys2Proof.Machine
end

