-- ==== Sys2Proof/Machine/Step.lean ====
section
/-! DEFINITION. The step: one operation of the block (spec/60_exceptions.md R131), a CYCLE unless the state lists another
host operation first. The third outcome, a refusal, never occurs: every instruction has its meaning. -/

namespace Sys2Proof.Machine

/-- One step of the machine. -/
def step (s : State) : Host.Outcome State Fault Refusal := nextOperation s

/-- The state with an instruction, numbered as spec/opcode_table.json numbers its bits, stored where `step` fetches its next
instruction; any host operation listed before it is taken away, and a pc that is no legal fetch address is set to 0x200. -/
def State.withFetchWord (s : State) (nbits w : Nat) : State := s.placeWord (tableWord nbits w)

end Sys2Proof.Machine
end

