-- ==== Sys2Proof/Safety.lean ====
section
/-! DEFINITION. The terms claims use: the invariants of a state, the states the operations reach, what each instruction may
write, when it completes and how it fails, and the spec's named premises (the end of spec/92_eei_decisions.md). The tables here are written from the
spec's own tables and rules, not from the meanings. -/

namespace Sys2Proof.Machine

/-! ### Invariants -/

/-- The invariant of spec/10_state.md R20 and R31 as the model holds it: SP stays within 0 to 16, and memory keeps its
canonical form, so that it has exactly the cells 0 to 4095. A pixel is one bit by its type. -/
abbrev Inv (s : State) : Prop := s.mem.wf ∧ s.sp.toNat ≤ Config.stackDepth

/-- The bounds of spec/10_state.md R19: pc is at most 0x10FE and every stack entry in use is at most 4096, so adding 2 to
pc never wraps after a fetch that succeeds. -/
abbrev PcBounded (s : State) : Prop :=
  s.pc.toNat ≤ 0x10FE ∧ s.sp.toNat ≤ Config.stackDepth ∧ ∀ j : Fin 16, j.val < s.sp.toNat → s.stack[j].toNat ≤ 4096

/-- The states reachable from construction by the operations of spec/60_exceptions.md R131, in any order and with any
inputs. A failed operation leaves its state as it was (R125), so it reaches nothing new. -/
inductive Reachable : State → Prop where
  | construct : Reachable State.reset
  | operate (op : HostOp) {s t : State} (h : Reachable s) (ht : perform op s = .next t) : Reachable t

/-! ### What changes -/

/-- The parts of the Machine State that an instruction can write. The keypad is not among them (R26). -/
inductive Part where
  | regs | index | pc | sp | stack | dt | st | fb | mem
  deriving DecidableEq, Repr

/-- Every part not listed is the same in `t` as in `s`, and so are the keypad and the model's own fields. -/
def SameOutside (parts : List Part) (s t : State) : Prop :=
  (Part.regs ∉ parts → ∀ r : Reg, t.reg r = s.reg r) ∧
  (Part.index ∉ parts → t.index = s.index) ∧
  (Part.pc ∉ parts → t.pc = s.pc) ∧
  (Part.sp ∉ parts → t.sp = s.sp) ∧
  (Part.stack ∉ parts → ∀ j : Fin 16, t.stack[j] = s.stack[j]) ∧
  (Part.dt ∉ parts → t.dt = s.dt) ∧
  (Part.st ∉ parts → t.st = s.st) ∧
  (Part.fb ∉ parts → ∀ (y : Fin 32) (x : Fin 64), t.pixel y x = s.pixel y x) ∧
  (Part.mem ∉ parts → ∀ a : Nat, t.load a = s.load a) ∧
  t.keys = s.keys ∧ t.rnd = s.rnd ∧ t.draws = s.draws ∧ t.hostOps = s.hostOps

/-- Every general register but those listed is the same in `t` as in `s`. -/
def RegsSameBut (regs : List Reg) (s t : State) : Prop := ∀ r : Reg, r ∉ regs → t.reg r = s.reg r

/-- The parts each instruction writes: "who writes" of spec/10_state.md R16, R17, R18, R20 to R25 and spec/20_memory.md R35,
R37. -/
def writtenParts : Instr → List Part
  | .cls => [.fb]
  | .ret => [.pc, .sp]
  | .jp _ => [.pc]
  | .call _ => [.pc, .sp, .stack]
  | .seByte _ _ => [.pc]
  | .sneByte _ _ => [.pc]
  | .seReg _ _ => [.pc]
  | .ldByte _ _ => [.regs]
  | .addByte _ _ => [.regs]
  | .ldReg _ _ => [.regs]
  | .orReg _ _ => [.regs]
  | .andReg _ _ => [.regs]
  | .xorReg _ _ => [.regs]
  | .addReg _ _ => [.regs]
  | .subReg _ _ => [.regs]
  | .shrReg _ _ => [.regs]
  | .subnReg _ _ => [.regs]
  | .shlReg _ _ => [.regs]
  | .sneReg _ _ => [.pc]
  | .ldI _ => [.index]
  | .jpV0 _ => [.pc]
  | .rnd _ _ => [.regs]
  | .drw _ _ _ => [.regs, .fb]
  | .skp _ => [.pc]
  | .sknp _ => [.pc]
  | .ldVxDt _ => [.regs]
  | .ldVxK _ => [.regs, .pc]
  | .ldDtVx _ => [.dt]
  | .ldStVx _ => [.st]
  | .addIVx _ => [.index]
  | .ldFVx _ => [.index]
  | .ldBVx _ => [.mem]
  | .ldMemVx _ => [.mem]
  | .ldVxMem _ => [.regs]

/-- The general registers each instruction writes: the "writes" column of spec/10_state.md R16. -/
def writtenRegs : Instr → List Reg
  | .cls => []
  | .ret => []
  | .jp _ => []
  | .call _ => []
  | .seByte _ _ => []
  | .sneByte _ _ => []
  | .seReg _ _ => []
  | .ldByte x _ => [x]
  | .addByte x _ => [x]
  | .ldReg x _ => [x]
  | .orReg x _ => [x]
  | .andReg x _ => [x]
  | .xorReg x _ => [x]
  | .addReg x _ => [vf, x]
  | .subReg x _ => [vf, x]
  | .shrReg x _ => [vf, x]
  | .subnReg x _ => [vf, x]
  | .shlReg x _ => [vf, x]
  | .sneReg _ _ => []
  | .ldI _ => []
  | .jpV0 _ => []
  | .rnd x _ => [x]
  | .drw _ _ _ => [vf]
  | .skp _ => []
  | .sknp _ => []
  | .ldVxDt x => [x]
  | .ldVxK x => [x]
  | .ldDtVx _ => []
  | .ldStVx _ => []
  | .addIVx _ => []
  | .ldFVx _ => []
  | .ldBVx _ => []
  | .ldMemVx _ => []
  | .ldVxMem x => regsUpTo x

/-- How many bytes each instruction stores, from the effective address I + 0 on (spec/20_memory.md R37). -/
def storedBytes : Instr → Nat
  | .ldBVx _ => 3
  | .ldMemVx x => x.val + 1
  | _ => 0

/-- Address `a` is one of the cells the instruction stores to in state `s`. -/
def StoredAt (ins : Instr) (s : State) (a : Nat) : Prop := s.effAddr 0 ≤ a ∧ a < s.effAddr (storedBytes ins)

/-! ### The sprite of DXYN (spec/44_display.md R113, R114) -/

/-- Bit `7 - col` of a sprite byte: the pixel in its column `col`, most significant bit leftmost. -/
def spriteBit (b : Byte) (col : Nat) : Bool := b.getLsbD (7 - col)

/-- `b(y, x)` of R114: the sprite of N rows at I, drawn from the origin V[X], V[Y], has a set bit on pixel (`y`, `x`). -/
def spriteCovers (s : State) (vx vy : Byte) (n : Nibble) (y x : Nat) : Bool :=
  decide (originRow vy ≤ y ∧ y < originRow vy + n.toNat ∧ originColumn vx ≤ x ∧ x < originColumn vx + 8) &&
    spriteBit (s.mem.get (s.effAddr (y - originRow vy))) (x - originColumn vx)

/-- The draw does not fail (R113): every row address is a cell, and every set bit falls on the screen. -/
def DrawLegal (s : State) (vx vy : Byte) (n : Nibble) : Prop :=
  ∀ row < n.toNat, s.effAddr row ≤ 4095 ∧
    ∀ col < 8, spriteBit (s.mem.get (s.effAddr row)) col = true → originColumn vx + col ≤ 63 ∧ originRow vy + row ≤ 31

/-! ### When an instruction completes, and how it fails -/

/-- The condition under which each handler completes, for a state with SP at most 16: the "Exceptions" line of each
instruction's rule. -/
def Completes (s : State) : Instr → Prop
  | .ret => s.sp ≠ 0
  | .call _ => s.sp ≠ 16
  | .drw x y n => DrawLegal s (s.reg x) (s.reg y) n
  | .skp x => (s.reg x).toNat ≤ 15
  | .sknp x => (s.reg x).toNat ≤ 15
  | .ldBVx _ => s.effAddr 2 ≤ 4095
  | .ldMemVx x => s.effAddr x.val ≤ 4095
  | .ldVxMem x => s.effAddr x.val ≤ 4095
  | _ => True

/-- The one failure each handler can raise (spec/60_exceptions.md R126), with P = pc - 2 and the instruction's word; `none`
for the handlers that raise none. -/
def failureOf (s : State) (ins : Instr) : Option Fault :=
  match ins with
  | .ret => some (.stackUnderflow (s.pc - 2) (encode ins))
  | .call _ => some (.stackOverflow (s.pc - 2) (encode ins))
  | .drw _ _ _ => some (.outOfBounds (s.pc - 2) (some (encode ins)))
  | .skp _ => some (.outOfBounds (s.pc - 2) (some (encode ins)))
  | .sknp _ => some (.outOfBounds (s.pc - 2) (some (encode ins)))
  | .ldBVx _ => some (.outOfBounds (s.pc - 2) (some (encode ins)))
  | .ldMemVx _ => some (.outOfBounds (s.pc - 2) (some (encode ins)))
  | .ldVxMem _ => some (.outOfBounds (s.pc - 2) (some (encode ins)))
  | _ => none

/-- pc after a successful cycle that executed `ins`, from the state `s` before the cycle: the table of spec/40_cycle.md
R75. -/
def pcAfter (s : State) : Instr → Word
  | .seByte x kk => if s.reg x = kk then s.pc + 4 else s.pc + 2
  | .sneByte x kk => if s.reg x = kk then s.pc + 2 else s.pc + 4
  | .seReg x y => if s.reg x = s.reg y then s.pc + 4 else s.pc + 2
  | .sneReg x y => if s.reg x = s.reg y then s.pc + 2 else s.pc + 4
  | .skp x => if s.keys[(s.reg x).toNat]? = some true then s.pc + 4 else s.pc + 2
  | .sknp x => if s.keys[(s.reg x).toNat]? = some false then s.pc + 4 else s.pc + 2
  | .jp nnn => zext16 nnn
  | .call nnn => zext16 nnn
  | .ret => s.stack[(s.sp - 1).toNat]?.getD 0
  | .jpV0 nnn => zext16 (s.reg 0) + zext16 nnn
  | .ldVxK _ => if ∃ k : Key, s.keyPressed k = true then s.pc + 2 else s.pc
  | _ => s.pc + 2

/-- A word that matches no row: the table of spec/30_encoding.md R61, by family. -/
def unknownWord (w : Word) : Bool :=
  match w.toNat / 4096 with
  | 0x0 => w != 0x00E0 && w != 0x00EE
  | 0x5 => w.toNat % 16 != 0
  | 0x8 => [0x8, 0x9, 0xA, 0xB, 0xC, 0xD, 0xF].contains (w.toNat % 16)
  | 0x9 => w.toNat % 16 != 0
  | 0xE => !([0x9E, 0xA1].contains (w.toNat % 256))
  | 0xF => !([0x07, 0x0A, 0x15, 0x18, 0x1E, 0x29, 0x33, 0x55, 0x65].contains (w.toNat % 256))
  | _ => false

/-- The same outcome with its next state, if it has one, changed by `f`. -/
def mapNext (f : State → State) : Result → Result
  | .next t => .next (f t)
  | .fault r => .fault r
  | .refused r => .refused r

/-- Run handlers one after another, each after the advance of its own cycle (spec/40_cycle.md R69), stopping at the first
failure: what a run of steps with no host operation listed does whose fetched instructions are these. That each cycle's
input byte is a free draw, and that the draw counter goes up by one before each cycle so that no two cycles of the list read
the same draw, is the model's choice (DESIGN CHOICE, log entry 1): R74 and decision D19 put no law on successive draws. -/
def runHandlers : List Instr → State → Result
  | [], s => .next s
  | ins :: rest, s =>
    match exec ins (s.nextDraw.beginCycle none) with
    | .next t => runHandlers rest t
    | .fault r => .fault r
    | .refused r => .refused r

/-! ### The spec's named premises (spec/92_eei_decisions.md) -/

/-- `NoAlias(X, Y)`: neither operand is VF (decisions D2, D35). -/
abbrev NoAlias (x y : Reg) : Prop := x ≠ vf ∧ y ≠ vf

/-- `FontWellFormed(FONT)`: the low four bits of every font byte are clear (decision D24). A premise on a table, not a fact
about `Config.font`. -/
def FontWellFormed (font : Nat → Byte) : Prop := ∀ k < Config.fontSize, font k &&& 0x0F = 0

/-- `FreshBoot(prog)`: the state after RESET and a successful LOAD of `prog`, with no other operation run (decisions D22,
D23). -/
def FreshBoot (prog : List Byte) (s : State) : Prop := perform (.load prog) State.reset = .next s

end Sys2Proof.Machine
end

