-- ==== Sys2Proof/WellFormed.lean ====
section
/-! DEFINITION. What can be ill-formed. The operand types of `Instr` carry their own bounds (a register number is a
`Fin 16`, NNN a 12-bit value), so no term of `Instr` is ill-formed and every one has an encoding. What the host can get
wrong is a 16-bit word that is no instruction (spec/30_encoding.md R60, R61) and a program image too long to load
(spec/60_exceptions.md R136): each has its check here, written from the spec's tables and not from the decoder. -/

namespace Sys2Proof

/-- A row of spec/opcode_table.json: a word is the row's instruction when its bits under `mask` are `pattern`. -/
structure OpcodeRow where
  mnemonic : String
  pattern : Word
  mask : Word
  deriving DecidableEq, Repr

/-- Families 0 to 7 of spec/opcode_table.json. -/
def opcodeTableLow : List OpcodeRow :=
  [⟨"00E0", 0x00E0, 0xFFFF⟩, ⟨"00EE", 0x00EE, 0xFFFF⟩, ⟨"1NNN", 0x1000, 0xF000⟩, ⟨"2NNN", 0x2000, 0xF000⟩,
   ⟨"3XKK", 0x3000, 0xF000⟩, ⟨"4XKK", 0x4000, 0xF000⟩, ⟨"5XY0", 0x5000, 0xF00F⟩, ⟨"6XKK", 0x6000, 0xF000⟩,
   ⟨"7XKK", 0x7000, 0xF000⟩]

/-- Family 8 of spec/opcode_table.json. -/
def opcodeTableAlu : List OpcodeRow :=
  [⟨"8XY0", 0x8000, 0xF00F⟩, ⟨"8XY1", 0x8001, 0xF00F⟩, ⟨"8XY2", 0x8002, 0xF00F⟩, ⟨"8XY3", 0x8003, 0xF00F⟩,
   ⟨"8XY4", 0x8004, 0xF00F⟩, ⟨"8XY5", 0x8005, 0xF00F⟩, ⟨"8XY6", 0x8006, 0xF00F⟩, ⟨"8XY7", 0x8007, 0xF00F⟩,
   ⟨"8XYE", 0x800E, 0xF00F⟩]

/-- Families 9 to F of spec/opcode_table.json. -/
def opcodeTableHigh : List OpcodeRow :=
  [⟨"9XY0", 0x9000, 0xF00F⟩, ⟨"ANNN", 0xA000, 0xF000⟩, ⟨"BNNN", 0xB000, 0xF000⟩, ⟨"CXKK", 0xC000, 0xF000⟩,
   ⟨"DXYN", 0xD000, 0xF000⟩, ⟨"EX9E", 0xE09E, 0xF0FF⟩, ⟨"EXA1", 0xE0A1, 0xF0FF⟩, ⟨"FX07", 0xF007, 0xF0FF⟩,
   ⟨"FX0A", 0xF00A, 0xF0FF⟩, ⟨"FX15", 0xF015, 0xF0FF⟩, ⟨"FX18", 0xF018, 0xF0FF⟩, ⟨"FX1E", 0xF01E, 0xF0FF⟩,
   ⟨"FX29", 0xF029, 0xF0FF⟩, ⟨"FX33", 0xF033, 0xF0FF⟩, ⟨"FX55", 0xF055, 0xF0FF⟩, ⟨"FX65", 0xF065, 0xF0FF⟩]

/-- The 34 rows of spec/opcode_table.json, in its order. -/
def opcodeTable : List OpcodeRow := opcodeTableLow ++ opcodeTableAlu ++ opcodeTableHigh

/-- The word is the row's: every literal digit of the pattern matches (R60). -/
def OpcodeRow.matchesWord (row : OpcodeRow) (w : Word) : Bool := w &&& row.mask == row.pattern

/-- The word is one of the 43954 that the table gives a meaning (R61). -/
def wordWellFormed (w : Word) : Bool := opcodeTable.any fun row => row.matchesWord w

/-- The program image fits the program region (R136: "for a count not exceeding 4096 − 0x200 bytes"). -/
def programWellFormed (bytes : List Byte) : Bool := bytes.length ≤ Config.maxRom

end Sys2Proof
end

