-- ==== Sys2Proof/Certificates/Slice0/Obligations.lean ====
section
/-! DEFINITION. The statements for the provers. Each docstring names the rules of spec/ it formalises; OBLIGATIONS.json lists
them. A statement about an instruction is about `exec` in a state whose pc is already P + 2 (spec/40_cycle.md R69);
`StepRunsDecodedInstruction` carries it to a step. -/

open Sys2Proof Sys2Proof.Machine

/-! ### Encoding -/

/-- R53, R57 to R60, R66: decoding an instruction's encoding gives it back, as a word and as bytes in memory order. No term
of `Instr` is ill-formed, so this is about every instruction at every operand value. -/
def Obligations.DecodeOfEncode : Prop :=
  (∀ ins : Instr, decode (encode ins) = some ins) ∧
  (∀ (ins : Instr) (rest : List Byte), decodeBytes (encodeBytes ins ++ rest) = .ok (ins, rest))

/-- R60, R66: a word that decodes is the encoding of what it decodes to: no bit of it is ignored. -/
def Obligations.EncodeOfDecode : Prop := ∀ (w : Word) (ins : Instr), decode w = some ins → encode ins = w

/-- R60, R66, spec/opcode_table.json: exactly the words that match a row of the table decode, each to the instruction whose
row it matches. -/
def Obligations.DecodeFollowsOpcodeTable : Prop :=
  (∀ w : Word, (decode w).isSome = wordWellFormed w) ∧
  (∀ (w : Word) (ins : Instr), decode w = some ins →
    ∃ row ∈ opcodeTable, row.matchesWord w = true ∧ row.mnemonic = ins.mnemonic)

/-- R61: the unknown words are exactly those of its table. -/
def Obligations.UnknownWordsByFamily : Prop := ∀ w : Word, decode w = none ↔ unknownWord w = true

/-- R58 to R60: words written out from spec/95_test_vectors.md L2.1 decode as it says. -/
def Obligations.SampleWordsDecode : Prop :=
  decode 0x00E0 = some .cls ∧ decode 0x00EE = some .ret ∧ decode 0x0000 = none ∧ decode 0x01E0 = none ∧
  decode 0x5120 = some (.seReg 1 2) ∧ decode 0x5121 = none ∧ decode 0x812E = some (.shlReg 1 2) ∧
  decode 0x812F = none ∧ decode 0xD010 = some (.drw 0 1 0) ∧ decode 0xB123 = some (.jpV0 0x123) ∧
  decode 0xE19E = some (.skp 1) ∧ decode 0xF107 = some (.ldVxDt 1) ∧ decode 0xF166 = none

/-! ### The cycle -/

/-- R69, R70, R73: a cycle runs the instruction at pc after the advance. That the head of `hostOps` is what a step performs,
with the list's rest left, and that an empty list means a CYCLE whose input byte is a free draw, with the draw counter one
up, are the model's own choices (DESIGN CHOICE, log entries 1 and 2): R67, R131 and R133 give the operations and the input
byte, not the order in which they come. -/
def Obligations.StepRunsDecodedInstruction : Prop :=
  (∀ (s : State) (w : Word) (ins : Instr), s.hostOps = [] → s.fetchWord = some w → decode w = some ins →
    step s = exec ins { s with draws := s.draws + 1, rnd := none, pc := s.pc + 2 }) ∧
  (∀ (s : State) (b : Byte) (rest : List HostOp) (w : Word) (ins : Instr),
    s.hostOps = .cycle b :: rest → s.fetchWord = some w → decode w = some ins →
    step s = exec ins { s with hostOps := rest, rnd := some b, pc := s.pc + 2 }) ∧
  (∀ (s : State) (op : HostOp) (rest : List HostOp), s.hostOps = op :: rest →
    step s = perform op { s with hostOps := rest })

/-- R54, R68: from a legal fetch address the word is the byte at P times 256 plus the byte at P + 1. -/
def Obligations.FetchIsBigEndian : Prop :=
  ∀ s : State, 0x200 ≤ s.pc.toNat → s.pc.toNat ≤ 4094 →
    ∃ hi lo w, s.load s.pc.toNat = some hi ∧ s.load (s.pc.toNat + 1) = some lo ∧ s.fetchWord = some w ∧
      w.toNat = hi.toNat * 256 + lo.toNat

/-- R68, R32: the fetch range check, whose failure is the spec's decision D6 (above 4094) and D7 (below 0x200). Outside 0x200 to 4094 the cycle fails with OutOfBounds, the address and no word; inside
it never fails so; and no cycle succeeds outside. -/
def Obligations.FetchRangeCheck : Prop :=
  ∀ (r : Option Byte) (s : State),
    (s.pc.toNat > 4094 ∨ s.pc.toNat < 0x200 → cycle r s = .fault (.outOfBounds s.pc none)) ∧
    (0x200 ≤ s.pc.toNat ∧ s.pc.toNat ≤ 4094 → cycle r s ≠ .fault (.outOfBounds s.pc none)) ∧
    (∀ t, cycle r s = .next t → 0x200 ≤ s.pc.toNat ∧ s.pc.toNat ≤ 4094)

/-- R70, R149: a cycle that fetches an unknown word fails with UnknownInstruction, P and the word; two zero bytes are such
a word, so a run into zeroed memory fails there, as does the first cycle after reset. That an unknown word fails is the
spec's decision D3. -/
def Obligations.UnknownWordFails : Prop :=
  (∀ (r : Option Byte) (s : State) (w : Word), s.fetchWord = some w → decode w = none →
    cycle r s = .fault (.unknownInstruction s.pc w)) ∧
  (∀ (r : Option Byte) (s : State), 0x200 ≤ s.pc.toNat → s.pc.toNat ≤ 4094 → s.load s.pc.toNat = some 0 →
    s.load (s.pc.toNat + 1) = some 0 → cycle r s = .fault (.unknownInstruction s.pc 0)) ∧
  (∀ r : Option Byte, cycle r State.reset = .fault (.unknownInstruction 0x200 0x0000))

/-- R124, R131, R134: what a failed operation reports. A CYCLE reports one of the codes 1 to 4, the pc before it, and the
fetched word, or none when the fetch failed; a LOAD reports code 5 and neither; the other operations never fail. The report is the
spec's decision D9 and the numbers its decision D10. -/
def Obligations.FailureReport : Prop :=
  (∀ (b : Byte) (s : State) (f : Fault), perform (.cycle b) s = .fault f →
    faultCode f ∈ [1, 2, 3, 4] ∧ faultPc f = some s.pc ∧ faultWord f = s.fetchWord) ∧
  (∀ (bytes : List Byte) (s : State) (f : Fault), perform (.load bytes) s = .fault f →
    faultCode f = 5 ∧ faultPc f = none ∧ faultWord f = none) ∧
  (∀ s : State, ∃ t, perform .reset s = .next t) ∧
  (∀ s : State, ∃ t, perform .tick s = .next t) ∧
  (∀ (s : State) (k : Key) (p : Bool), ∃ t, perform (.keySet k p) s = .next t)

/-- R125, R128: a failed operation leaves the state as it was, and a CYCLE issued again after a failed CYCLE, with any input
byte, fails the same way. -/
def Obligations.FailedCycleFailsAgain : Prop :=
  (∀ (op : HostOp) (s : State) (f : Fault), perform op s = .fault f → s.after op = s) ∧
  (∀ (b b' : Byte) (s : State) (f : Fault), perform (.cycle b) s = .fault f →
    perform (.cycle b') (s.after (.cycle b)) = .fault f)

/-- R74: the cycle's input byte is read by CXKK only: every other handler does the same whatever it is. -/
def Obligations.OnlyRandomReadsInput : Prop :=
  ∀ (ins : Instr) (s : State) (r : Option Byte) (d : Nat), ins.mnemonic ≠ "CXKK" →
    exec ins { s with rnd := r, draws := d } = mapNext (fun t => { t with rnd := r, draws := d }) (exec ins s)

/-- R126, with R79, R81, R113, R117, R118, R108 to R110: each handler raises at most the one kind its rule names, reported
with P = pc - 2 and the instruction's word. The premise SP ≤ 16 is part of the invariant. -/
def Obligations.EachHandlerRaisesOneKind : Prop :=
  ∀ (ins : Instr) (s : State) (f : Fault), s.sp.toNat ≤ 16 → exec ins s = .fault f → failureOf s ins = some f

/-- The "Exceptions" lines of R79 to R122: an instruction completes exactly when its rule says it does not fail. The
premise SP ≤ 16 is part of the invariant. -/
def Obligations.CompletesExactlyWhen : Prop :=
  ∀ (ins : Instr) (s : State), s.sp.toNat ≤ 16 → ((∃ t, exec ins s = .next t) ↔ Completes s ins)

/-- R131, R134: an outcome is Ok or a fault: no step is refused. -/
def Obligations.StepIsNeverRefused : Prop := ∀ (s : State) (m : Refusal), step s ≠ .refused m

/-- R75: pc after a successful cycle, for every instruction; after a failed one it is P. R75 is the spec's own inference
from R69 and the instructions' rules. -/
def Obligations.PcAfterCycle : Prop :=
  (∀ (b : Byte) (s t : State) (w : Word) (ins : Instr), s.fetchWord = some w → decode w = some ins →
    perform (.cycle b) s = .next t → t.pc = pcAfter s ins) ∧
  (∀ (b : Byte) (s : State) (f : Fault), perform (.cycle b) s = .fault f → (s.after (.cycle b)).pc = s.pc)

/-- R78: a cycle that jumps to its own address ends with the whole state unchanged but for the model's own record of the
input byte. -/
def Obligations.JumpToSelfChangesNothing : Prop :=
  ∀ (r : Option Byte) (s : State) (w : Word) (nnn : Addr), s.fetchWord = some w → decode w = some (.jp nnn) →
    nnn.toNat = s.pc.toNat → cycle r s = .next { s with rnd := r }

/-! ### Frames -/

/-- R8, R13, R16, R17, R20 to R26, R35, R37 (the frame rule): an instruction leaves every part it does not name unchanged. -/
def Obligations.InstructionFrame : Prop :=
  ∀ (ins : Instr) (s t : State), exec ins s = .next t → SameOutside (writtenParts ins) s t

/-- R16: the general registers each instruction writes; every other one keeps its value. -/
def Obligations.RegisterFrame : Prop :=
  ∀ (ins : Instr) (s t : State), exec ins s = .next t → RegsSameBut (writtenRegs ins) s t

/-- R37, R41: FX33 stores three bytes from I on, FX55 X + 1, and no other instruction stores; every other address reads as
before. -/
def Obligations.MemoryFrame : Prop :=
  ∀ (ins : Instr) (s t : State) (a : Nat), exec ins s = .next t → ¬ StoredAt ins s a → t.load a = s.load a

/-- R77, R22, R23, R26: a cycle does not decrement the timers or change the keypad: DT changes only by FX15 and ST only by
FX18. -/
def Obligations.CycleLeavesTimersAndKeys : Prop :=
  ∀ (b : Byte) (s t : State) (w : Word) (ins : Instr), s.fetchWord = some w → decode w = some ins →
    perform (.cycle b) s = .next t →
    t.keys = s.keys ∧ (ins.mnemonic ≠ "FX15" → t.dt = s.dt) ∧ (ins.mnemonic ≠ "FX18" → t.st = s.st)

/-! ### Invariants -/

/-- R20, R31: every step, whatever host operation it performs, keeps SP within 0 to 16 and memory in its canonical form. -/
def Obligations.StepKeepsInv : Prop := ∀ s t : State, Inv s → step s = .next t → Inv t

/-- R30: reset meets both invariants. -/
def Obligations.ResetMeetsInvariants : Prop := Inv State.reset ∧ PcBounded State.reset

/-- R31: in every state the operations reach, SP is at most 16 and memory has exactly the cells 0 to 4095 (a pixel is one bit
by its type). R31 is the spec's own inference. -/
def Obligations.ReachableStatesAreLegal : Prop :=
  ∀ s : State, Reachable s → s.sp.toNat ≤ 16 ∧ ∀ a : Nat, (∃ b, s.load a = some b) ↔ a ≤ 4095

/-- R19: every step keeps pc at most 0x10FE and the stack entries in use at most 4096, and after a fetch that succeeds
neither the advance nor a taken skip wraps. R19 is the spec's own inference. -/
def Obligations.StepKeepsPcBounded : Prop :=
  (∀ s t : State, PcBounded s → step s = .next t → PcBounded t) ∧
  (∀ s : State, s.fetchWord ≠ none → (s.pc + 2).toNat = s.pc.toNat + 2 ∧ (s.pc + 4).toNat = s.pc.toNat + 4)

/-! ### Control transfer and skips -/

/-- R79: 00EE pops the most recently pushed entry into pc and leaves it in place; with SP = 0 it fails with
StackUnderflow. The entry popped is the spec's decision D38 and the failure its decision D5. -/
def Obligations.ReturnPopsNewestEntry : Prop :=
  (∀ s : State, 1 ≤ s.sp.toNat → s.sp.toNat ≤ 16 →
    ∃ t, exec .ret s = .next t ∧ t.sp.toNat = s.sp.toNat - 1 ∧ s.stack[s.sp.toNat - 1]? = some t.pc ∧
      SameOutside [.pc, .sp] s t) ∧
  (∀ s : State, s.sp.toNat = 0 → exec .ret s = .fault (.stackUnderflow (s.pc - 2) 0x00EE))

/-- R80: 1NNN sets pc to NNN and changes nothing else. -/
def Obligations.JumpGoesToTarget : Prop :=
  ∀ (nnn : Addr) (s : State), ∃ t, exec (.jp nnn) s = .next t ∧ t.pc.toNat = nnn.toNat ∧ SameOutside [.pc] s t

/-- R81: 2NNN pushes the advanced pc, increments SP and jumps; with SP = 16 it fails with StackOverflow,
the spec's decision D5. -/
def Obligations.CallPushesAndJumps : Prop :=
  (∀ (nnn : Addr) (s : State), s.sp.toNat < 16 →
    ∃ t, exec (.call nnn) s = .next t ∧ t.pc.toNat = nnn.toNat ∧ t.sp.toNat = s.sp.toNat + 1 ∧
      t.stack[s.sp.toNat]? = some s.pc ∧ (∀ j : Fin 16, j.val ≠ s.sp.toNat → t.stack[j] = s.stack[j]) ∧
      SameOutside [.pc, .sp, .stack] s t) ∧
  (∀ (nnn : Addr) (s : State), s.sp.toNat = 16 →
    exec (.call nnn) s = .fault (.stackOverflow (s.pc - 2) (encode (.call nnn))))

/-- R88: BNNN sets pc to V[0] + NNN, without wrap or mask, and changes nothing else. -/
def Obligations.JumpOffsetAddsV0 : Prop :=
  ∀ (nnn : Addr) (s : State),
    ∃ t, exec (.jpV0 nnn) s = .next t ∧ t.pc.toNat = (s.reg 0).toNat + nnn.toNat ∧ SameOutside [.pc] s t

/-- R83, R84: 3XKK and 4XKK, with their encodings: they add 2 to the advanced pc exactly when V[X] is, or is not, KK, and
write no flag. That nothing else changes is in `InstructionFrame`. -/
def Obligations.SkipsOnImmediate : Prop :=
  ∀ (x : Reg) (kk : Byte) (s : State),
    (∀ w : Word, decode w = some (.seByte x kk) ↔ w.toNat = 0x3000 + 256 * x.val + kk.toNat) ∧
    (∀ w : Word, decode w = some (.sneByte x kk) ↔ w.toNat = 0x4000 + 256 * x.val + kk.toNat) ∧
    (∃ t, exec (.seByte x kk) s = .next t ∧ t.pc = (if s.reg x = kk then s.pc + 2 else s.pc) ∧ t.reg vf = s.reg vf) ∧
    (∃ t, exec (.sneByte x kk) s = .next t ∧ t.pc = (if s.reg x = kk then s.pc else s.pc + 2) ∧ t.reg vf = s.reg vf)

/-- R85, R86: 5XY0 and 9XY0, with their encodings: they add 2 to the advanced pc exactly when V[X] and V[Y] are equal, or
differ, and write no flag. That nothing else changes is in `InstructionFrame`. -/
def Obligations.SkipsOnRegisters : Prop :=
  ∀ (x y : Reg) (s : State),
    (∀ w : Word, decode w = some (.seReg x y) ↔ w.toNat = 0x5000 + 256 * x.val + 16 * y.val) ∧
    (∀ w : Word, decode w = some (.sneReg x y) ↔ w.toNat = 0x9000 + 256 * x.val + 16 * y.val) ∧
    (∃ t, exec (.seReg x y) s = .next t ∧ t.pc = (if s.reg x = s.reg y then s.pc + 2 else s.pc) ∧
      t.reg vf = s.reg vf) ∧
    (∃ t, exec (.sneReg x y) s = .next t ∧ t.pc = (if s.reg x = s.reg y then s.pc else s.pc + 2) ∧
      t.reg vf = s.reg vf)

/-- R87: k nested calls and k returns, with no other stack operation between, end with SP back at its first value and pc two
past the outermost call. R87 is the spec's own inference from R79 and R81. -/
def Obligations.NestedCallsReturn : Prop :=
  ∀ (targets : List Addr) (s : State), targets ≠ [] → s.sp.toNat + targets.length ≤ 16 →
    ∃ t, runHandlers (targets.map Instr.call ++ List.replicate targets.length Instr.ret) s = .next t ∧
      t.sp = s.sp ∧ t.pc = s.pc + 2

/-! ### Register arithmetic -/

/-- R90, R92: 6XKK and 8XY0, with their encodings: the immediate and the copy write V[X]; VF is written only as the
destination. That nothing else changes is in `InstructionFrame` and `RegisterFrame`. -/
def Obligations.LoadAndCopyWriteX : Prop :=
  ∀ (x y : Reg) (kk : Byte) (s : State),
    (∀ w : Word, decode w = some (.ldByte x kk) ↔ w.toNat = 0x6000 + 256 * x.val + kk.toNat) ∧
    (∀ w : Word, decode w = some (.ldReg x y) ↔ w.toNat = 0x8000 + 256 * x.val + 16 * y.val) ∧
    (∃ t, exec (.ldByte x kk) s = .next t ∧ t.reg x = kk ∧ (x ≠ vf → t.reg vf = s.reg vf)) ∧
    (∃ t, exec (.ldReg x y) s = .next t ∧ t.reg x = s.reg y ∧ (x ≠ vf → t.reg vf = s.reg vf))

/-- R93 to R95: the bitwise operations write V[X] alone. That VF is left alone is the spec's decision D21. -/
def Obligations.LogicLeavesFlagAlone : Prop :=
  ∀ (x y : Reg) (s : State),
    (∃ t, exec (.orReg x y) s = .next t ∧ t.reg x = s.reg x ||| s.reg y ∧ RegsSameBut [x] s t ∧
      SameOutside [.regs] s t) ∧
    (∃ t, exec (.andReg x y) s = .next t ∧ t.reg x = s.reg x &&& s.reg y ∧ RegsSameBut [x] s t ∧
      SameOutside [.regs] s t) ∧
    (∃ t, exec (.xorReg x y) s = .next t ∧ t.reg x = s.reg x ^^^ s.reg y ∧ RegsSameBut [x] s t ∧
      SameOutside [.regs] s t)

/-- R91: 7XKK, with its encoding: it adds modulo 256 and writes no flag. That nothing else changes is in
`InstructionFrame` and `RegisterFrame`. -/
def Obligations.AddImmediateWraps : Prop :=
  ∀ (x : Reg) (kk : Byte) (s : State),
    (∀ w : Word, decode w = some (.addByte x kk) ↔ w.toNat = 0x7000 + 256 * x.val + kk.toNat) ∧
    ∃ t, exec (.addByte x kk) s = .next t ∧ (t.reg x).toNat = ((s.reg x).toNat + kk.toNat) % 256 ∧
      (x ≠ vf → t.reg vf = s.reg vf)

/-- R96: 8XY4. The sum of the old values; V[X] takes its low byte; VF takes the carry, unless X is 0xF, where the low byte is
written last, which is the spec's decision D2. -/
def Obligations.AddWritesCarry : Prop :=
  ∀ (x y : Reg) (s : State),
    ∃ t, exec (.addReg x y) s = .next t ∧ (t.reg x).toNat = ((s.reg x).toNat + (s.reg y).toNat) % 256 ∧
      (x ≠ vf → t.reg vf = if (s.reg x).toNat + (s.reg y).toNat > 255 then 1 else 0) ∧
      RegsSameBut [vf, x] s t ∧ SameOutside [.regs] s t

/-- R97: 8XY5, case by case. The flag is strictly greater and is written first, so an operand that is VF reads the flag, and
a destination that is VF overwrites it: the order is the spec's decision D2. -/
def Obligations.SubtractWritesFlagFirst : Prop :=
  ∀ (x y : Reg) (s : State),
    ∃ t, exec (.subReg x y) s = .next t ∧
      (let flag : Byte := if (s.reg x).toNat > (s.reg y).toNat then 1 else 0
       (x ≠ vf → y ≠ vf → t.reg vf = flag ∧ t.reg x = s.reg x - s.reg y) ∧
       (x ≠ vf → y = vf → t.reg vf = flag ∧ t.reg x = s.reg x - flag) ∧
       (x = vf → y ≠ vf → t.reg vf = flag - s.reg y) ∧
       (x = vf → y = vf → t.reg vf = 0)) ∧
      RegsSameBut [vf, x] s t ∧ SameOutside [.regs] s t

/-- R99: 8XY7, case by case, as R97 with the operands exchanged (decision D2 for VF as an operand). -/
def Obligations.ReverseSubtractWritesFlagFirst : Prop :=
  ∀ (x y : Reg) (s : State),
    ∃ t, exec (.subnReg x y) s = .next t ∧
      (let flag : Byte := if (s.reg y).toNat > (s.reg x).toNat then 1 else 0
       (x ≠ vf → y ≠ vf → t.reg vf = flag ∧ t.reg x = s.reg y - s.reg x) ∧
       (x ≠ vf → y = vf → t.reg vf = flag ∧ t.reg x = flag - s.reg x) ∧
       (x = vf → y ≠ vf → t.reg vf = s.reg y - flag) ∧
       (x = vf → y = vf → t.reg vf = 0)) ∧
      RegsSameBut [vf, x] s t ∧ SameOutside [.regs] s t

/-- R98, R100: the shifts by one capture the bit shifted out in VF; Y is not read. With X = 0xF the flag itself is shifted:
8XY6 leaves 0, 8XYE leaves 2 or 0 (decision D2). -/
def Obligations.ShiftsCaptureBit : Prop :=
  ∀ (x y : Reg) (s : State),
    (∃ t, exec (.shrReg x y) s = .next t ∧
      (x ≠ vf → (t.reg x).toNat = (s.reg x).toNat / 2 ∧ (t.reg vf).toNat = (s.reg x).toNat % 2) ∧
      (x = vf → t.reg vf = 0) ∧ RegsSameBut [vf, x] s t ∧ SameOutside [.regs] s t) ∧
    (∃ t, exec (.shlReg x y) s = .next t ∧
      (x ≠ vf → (t.reg x).toNat = (s.reg x).toNat * 2 % 256 ∧ (t.reg vf).toNat = (s.reg x).toNat / 128) ∧
      (x = vf → t.reg vf = if (s.reg vf).toNat ≥ 128 then 2 else 0) ∧ RegsSameBut [vf, x] s t ∧
      SameOutside [.regs] s t)

/-- R104: a right shift then a left shift of a register other than VF gives `x AND 0xFE`, a left then a right
`x AND 0x7F`, and both leave VF = 0. R104 is the spec's own inference from R98 and R100. -/
def Obligations.ShiftPairsClearOneBit : Prop :=
  ∀ (x y y' : Reg) (s : State), x ≠ vf →
    (∃ t, runHandlers [.shrReg x y, .shlReg x y'] s = .next t ∧ t.reg x = s.reg x &&& 0xFE ∧ t.reg vf = 0) ∧
    (∃ t, runHandlers [.shlReg x y, .shrReg x y'] s = .next t ∧ t.reg x = s.reg x &&& 0x7F ∧ t.reg vf = 0)

/-- R101: CXKK writes the cycle's input byte under the mask. A byte the host gives with the CYCLE is that byte; a bit that
is 0 in KK is 0 in the result whatever is drawn. That a free draw obeys no law is the spec's decision D19 (log entry 1). -/
def Obligations.RandomUnderMask : Prop :=
  ∀ (x : Reg) (kk : Byte) (s : State),
    ∃ t, exec (.rnd x kk) s = .next t ∧ t.reg x = s.inputByte &&& kk ∧ (∀ b, s.rnd = some b → t.reg x = b &&& kk) ∧
      t.reg x &&& ~~~kk = 0 ∧ RegsSameBut [x] s t ∧ SameOutside [.regs] s t

/-! ### Index register and memory -/

/-- R105 to R107: ANNN, FX1E and FX29 write I alone: NNN; the sum modulo 65536, with no flag; 0x50 + 5 times the whole
byte V[X]. The modulus is the spec's decision D13, the unmasked digit its decision D12. -/
def Obligations.IndexWrites : Prop :=
  ∀ (nnn : Addr) (x : Reg) (s : State),
    (∃ t, exec (.ldI nnn) s = .next t ∧ t.index.toNat = nnn.toNat ∧ SameOutside [.index] s t) ∧
    (∃ t, exec (.addIVx x) s = .next t ∧ t.index.toNat = (s.index.toNat + (s.reg x).toNat) % 65536 ∧
      SameOutside [.index] s t) ∧
    (∃ t, exec (.ldFVx x) s = .next t ∧ t.index.toNat = 0x50 + 5 * (s.reg x).toNat ∧ SameOutside [.index] s t)

/-- R108: FX33 stores the three decimal digits of V[X] at I, I + 1, I + 2; with I + 2 above 4095 it fails with
OutOfBounds (decision D6); I is left as it was (decision D21). -/
def Obligations.DecimalDigitsStored : Prop :=
  ∀ (x : Reg) (s : State),
    (s.index.toNat + 2 ≤ 4095 →
      ∃ t h d u, exec (.ldBVx x) s = .next t ∧
        t.load s.index.toNat = some h ∧ t.load (s.index.toNat + 1) = some d ∧ t.load (s.index.toNat + 2) = some u ∧
        h.toNat = (s.reg x).toNat / 100 ∧ d.toNat = (s.reg x).toNat / 10 % 10 ∧ u.toNat = (s.reg x).toNat % 10 ∧
        (∀ a, ¬ StoredAt (.ldBVx x) s a → t.load a = s.load a) ∧ SameOutside [.mem] s t) ∧
    (s.index.toNat + 2 > 4095 → exec (.ldBVx x) s = .fault (.outOfBounds (s.pc - 2) (some (encode (.ldBVx x)))))

/-- R109: FX55 stores V[0] to V[X] at I to I + X and leaves I as it was; with I + X above 4095 it fails with
OutOfBounds (decisions D21 and D6). -/
def Obligations.BlockStore : Prop :=
  ∀ (x : Reg) (s : State),
    (s.index.toNat + x.val ≤ 4095 →
      ∃ t, exec (.ldMemVx x) s = .next t ∧ (∀ r : Reg, r ≤ x → t.load (s.index.toNat + r.val) = some (s.reg r)) ∧
        (∀ a, ¬ StoredAt (.ldMemVx x) s a → t.load a = s.load a) ∧ SameOutside [.mem] s t) ∧
    (s.index.toNat + x.val > 4095 →
      exec (.ldMemVx x) s = .fault (.outOfBounds (s.pc - 2) (some (encode (.ldMemVx x)))))

/-- R110: FX65 loads V[0] to V[X] from I to I + X and leaves I and the registers above X as they were; with I + X above 4095
it fails with OutOfBounds (decisions D21 and D6). -/
def Obligations.BlockLoad : Prop :=
  ∀ (x : Reg) (s : State),
    (s.index.toNat + x.val ≤ 4095 →
      ∃ t, exec (.ldVxMem x) s = .next t ∧ (∀ r : Reg, r ≤ x → s.load (s.index.toNat + r.val) = some (t.reg r)) ∧
        (∀ r : Reg, x < r → t.reg r = s.reg r) ∧ SameOutside [.regs] s t) ∧
    (s.index.toNat + x.val > 4095 →
      exec (.ldVxMem x) s = .fault (.outOfBounds (s.pc - 2) (some (encode (.ldVxMem x)))))

/-- R111: FX55 followed by FX65 with the same X leaves V[0] to V[X] as they were, and memory as FX55 left it. It rests
on decision D21 (I unchanged). -/
def Obligations.StoreThenLoadRestores : Prop :=
  ∀ (x : Reg) (s : State), s.index.toNat + x.val ≤ 4095 →
    ∃ t u, runHandlers [.ldMemVx x] s = .next t ∧ runHandlers [.ldMemVx x, .ldVxMem x] s = .next u ∧
      (∀ r : Reg, u.reg r = s.reg r) ∧ ∀ a, u.load a = t.load a

/-- R50, R152: a store into the word at P + 2 changes the next instruction fetched: after FX55 with I = P + 2, the next
fetch reads V[0] and V[1]. It rests on decision D26. -/
def Obligations.StoreChangesNextInstruction : Prop :=
  ∀ (x : Reg) (s t : State), 1 ≤ x.val → s.index = s.pc → 0x200 ≤ s.pc.toNat → s.pc.toNat ≤ 4094 →
    exec (.ldMemVx x) s = .next t → t.fetchWord = some (wordOfBytes (s.reg 0) (s.reg 1))

/-! ### Display -/

/-- R112: 00E0, with its encoding: it turns every pixel off and changes nothing else. -/
def Obligations.ClearTurnsPixelsOff : Prop :=
  (∀ w : Word, decode w = some .cls ↔ w = 0x00E0) ∧
  ∀ s : State, ∃ t, exec .cls s = .next t ∧ (∀ (y : Fin 32) (x : Fin 64), t.pixel y x = false) ∧ SameOutside [.fb] s t

/-- R113, R114: DXYN in closed form. When every row address is a cell and every set bit falls on the screen, it completes;
each pixel is XORed with the sprite; VF is 1 exactly when a set bit met a pixel that was on, else 0. Otherwise it fails with
OutOfBounds, the spec's decision D8. -/
def Obligations.DrawXorsSprite : Prop :=
  ∀ (x y : Reg) (n : Nibble) (s : State),
    (DrawLegal s (s.reg x) (s.reg y) n →
      ∃ t, exec (.drw x y n) s = .next t ∧
        (∀ (py : Fin 32) (px : Fin 64),
          t.pixel py px = (s.pixel py px ^^ spriteCovers s (s.reg x) (s.reg y) n py.val px.val)) ∧
        (t.reg vf = 0 ∨ t.reg vf = 1) ∧
        (t.reg vf = 1 ↔ ∃ (py : Fin 32) (px : Fin 64),
          spriteCovers s (s.reg x) (s.reg y) n py.val px.val = true ∧ s.pixel py px = true) ∧
        RegsSameBut [vf] s t ∧ SameOutside [.regs, .fb] s t) ∧
    (¬ DrawLegal s (s.reg x) (s.reg y) n →
      exec (.drw x y n) s = .fault (.outOfBounds (s.pc - 2) (some (encode (.drw x y n)))))

/-- R115 as it follows from R114: drawing the same sprite twice at the same origin, neither register being VF, restores
every pixel, and VF is 1 after the second draw exactly when a set bit fell on a pixel that was off before the first. So a
non-empty sprite over a blank box ends with VF = 1, the source's case; over pixels that were all on it ends with VF = 0, which
the flag clause of R115 leaves out (log entry 13). -/
def Obligations.DrawTwiceRestores : Prop :=
  ∀ (x y : Reg) (n : Nibble) (s : State), x ≠ vf → y ≠ vf → DrawLegal s (s.reg x) (s.reg y) n →
    ∃ t, runHandlers [.drw x y n, .drw x y n] s = .next t ∧
      (∀ (py : Fin 32) (px : Fin 64), t.pixel py px = s.pixel py px) ∧
      (t.reg vf = 0 ∨ t.reg vf = 1) ∧
      (t.reg vf = 1 ↔ ∃ (py : Fin 32) (px : Fin 64),
        spriteCovers s (s.reg x) (s.reg y) n py.val px.val = true ∧ s.pixel py px = false)

/-! ### Keypad and timers -/

/-- R117, R118, R82: EX9E and EXA1 skip exactly when key V[X] is pressed, or is not; with V[X] above 15 they fail with
OutOfBounds, the spec's decision D11. -/
def Obligations.SkipsOnKey : Prop :=
  ∀ (x : Reg) (s : State),
    (∀ k : Key, (s.reg x).toNat = k.val →
      (∃ t, exec (.skp x) s = .next t ∧ t.pc = (if s.keyPressed k = true then s.pc + 2 else s.pc) ∧
        SameOutside [.pc] s t) ∧
      (∃ t, exec (.sknp x) s = .next t ∧ t.pc = (if s.keyPressed k = true then s.pc else s.pc + 2) ∧
        SameOutside [.pc] s t)) ∧
    ((s.reg x).toNat > 15 →
      exec (.skp x) s = .fault (.outOfBounds (s.pc - 2) (some (encode (.skp x)))) ∧
      exec (.sknp x) s = .fault (.outOfBounds (s.pc - 2) (some (encode (.sknp x)))))

/-- R120: FX0A writes the lowest pressed key; with no key pressed it takes pc back by 2 and changes nothing else. -/
def Obligations.WaitTakesLowestKey : Prop :=
  ∀ (x : Reg) (s : State),
    (∀ k : Key, s.keyPressed k = true → (∀ j : Key, j < k → s.keyPressed j = false) →
      ∃ t, exec (.ldVxK x) s = .next t ∧ (t.reg x).toNat = k.val ∧ RegsSameBut [x] s t ∧ SameOutside [.regs] s t) ∧
    ((∀ k : Key, s.keyPressed k = false) →
      ∃ t, exec (.ldVxK x) s = .next t ∧ t.pc = s.pc - 2 ∧ SameOutside [.pc] s t)

/-- R119, R121, R122: FX07 reads DT; FX15 and FX18 write DT and ST from V[X]; each changes nothing else. -/
def Obligations.TimerTransfers : Prop :=
  ∀ (x : Reg) (s : State),
    (∃ t, exec (.ldVxDt x) s = .next t ∧ t.reg x = s.dt ∧ RegsSameBut [x] s t ∧ SameOutside [.regs] s t) ∧
    (∃ t, exec (.ldDtVx x) s = .next t ∧ t.dt = s.reg x ∧ SameOutside [.dt] s t) ∧
    (∃ t, exec (.ldStVx x) s = .next t ∧ t.st = s.reg x ∧ SameOutside [.st] s t)

/-! ### Host operations -/

/-- R135: TICK takes both timers down by one, not below zero, changes nothing else and never fails. -/
def Obligations.TickDecrementsTimers : Prop :=
  ∀ s : State, ∃ t, perform .tick s = .next t ∧ t.dt.toNat = s.dt.toNat - 1 ∧ t.st.toNat = s.st.toNat - 1 ∧
    SameOutside [.dt, .st] s t

/-- R136: LOAD writes its bytes to 0x200 onward, and no other cell and no register; over 3584 bytes it fails with
RomTooLarge. The operation's shape is the spec's decision D22. -/
def Obligations.LoadCopiesProgram : Prop :=
  ∀ (bytes : List Byte) (s : State),
    (bytes.length ≤ 3584 →
      ∃ t, perform (.load bytes) s = .next t ∧ (∀ k < bytes.length, t.load (0x200 + k) = bytes[k]?) ∧
        (∀ a, (a < 0x200 ∨ 0x200 + bytes.length ≤ a) → t.load a = s.load a) ∧ SameOutside [.mem] s t) ∧
    (bytes.length > 3584 → perform (.load bytes) s = .fault .romTooLarge)

/-- R137: KEY_SET writes one key and changes nothing else. Its shape is the spec's decision D34. -/
def Obligations.KeySetWritesOneKey : Prop :=
  ∀ (k : Key) (p : Bool) (s : State),
    ∃ t, perform (.keySet k p) s = .next t ∧ t.keyPressed k = p ∧ (∀ j : Key, j ≠ k → t.keyPressed j = s.keyPressed j) ∧
      ∃ keys, t = { s with keys := keys }

/-- R30, R132, R145, R146: RESET gives every part of the Machine State its reset value, the font region included, whatever
the state before; the model's own fields are not Machine State and stay (log entries 1 and 2). The zeros of I and of
the stack entries are the spec's decisions D18 and D17. -/
def Obligations.ResetValues : Prop :=
  ∀ s : State, ∃ t, perform .reset s = .next t ∧
    (∀ a < 4096, t.load a = some (if 0x50 ≤ a ∧ a < 0xA0 then Config.font (a - 0x50) else 0)) ∧
    (∀ r : Reg, t.reg r = 0) ∧ t.index = 0 ∧ t.pc = 0x200 ∧ t.sp = 0 ∧ (∀ j : Fin 16, t.stack[j] = 0) ∧
    t.dt = 0 ∧ t.st = 0 ∧ (∀ (y : Fin 32) (x : Fin 64), t.pixel y x = false) ∧
    (∀ k : Key, t.keyPressed k = false) ∧ t.draws = s.draws ∧ t.hostOps = s.hostOps

/-- R148, R30, R136: after RESET and LOAD of a program of at least one word, the next fetch reads the program's first two
bytes, and nothing but memory differs from reset. -/
def Obligations.FreshBootFetchesProgram : Prop :=
  ∀ (b0 b1 : Byte) (rest : List Byte) (s : State), FreshBoot (b0 :: b1 :: rest) s →
    s.fetchWord = some (wordOfBytes b0 b1) ∧ SameOutside [.mem] State.reset s

/-- R107, R113, R114 (spec/95_test_vectors.md E10, for any FONT): with memory as at reset, a blank framebuffer and I at a
glyph, DXY5 at the origin (0, 0) turns on exactly the glyph's bits and leaves VF = 0. -/
def Obligations.GlyphIsDrawnFromFont : Prop :=
  ∀ (d : Fin 16) (x y : Reg) (s : State), s.mem = [] → s.index.toNat = 0x50 + 5 * d.val → s.reg x = 0 → s.reg y = 0 →
    (∀ (py : Fin 32) (px : Fin 64), s.pixel py px = false) →
    ∃ t, exec (.drw x y 5) s = .next t ∧ t.reg vf = 0 ∧
      ∀ (py : Fin 32) (px : Fin 64), t.pixel py px =
        (decide (py.val < 5 ∧ px.val < 8) && spriteBit (Config.font (5 * d.val + py.val)) px.val)
end

