-- ==== Sys2Proof/Laws/Decode.lean ====
section
/-! SUPPORT. What each field of a word reads from each format (spec/30_encoding.md R55, R57), and that a word is put together
again from its bytes. -/

namespace Sys2Proof

@[simp] theorem fieldOp_formatNNN (op : BitVec 4) (nnn : Addr) : fieldOp (formatNNN op nnn) = op := by
  unfold fieldOp formatNNN
  rw [BitVec.extractLsb'_append_eq_of_le (by decide)]; simp

@[simp] theorem fieldNNN_formatNNN (op : BitVec 4) (nnn : Addr) : fieldNNN (formatNNN op nnn) = nnn := by
  unfold fieldNNN formatNNN
  rw [BitVec.extractLsb'_append_eq_of_add_le (by decide)]; simp

@[simp] theorem fieldOp_formatXKK (op : BitVec 4) (x : Reg) (kk : Byte) : fieldOp (formatXKK op x kk) = op := by
  unfold fieldOp formatXKK
  rw [BitVec.extractLsb'_append_eq_of_le (by decide), BitVec.extractLsb'_append_eq_of_le (by decide)]; simp

@[simp] theorem fieldX_formatXKK (op : BitVec 4) (x : Reg) (kk : Byte) : fieldX (formatXKK op x kk) = x := by
  unfold fieldX formatXKK
  rw [BitVec.extractLsb'_append_eq_of_le (by decide), BitVec.extractLsb'_append_eq_of_add_le (by decide)]; simp

@[simp] theorem fieldKK_formatXKK (op : BitVec 4) (x : Reg) (kk : Byte) : fieldKK (formatXKK op x kk) = kk := by
  unfold fieldKK formatXKK
  rw [BitVec.extractLsb'_append_eq_of_add_le (by decide)]; simp

@[simp] theorem fieldOp_formatXYN (op : BitVec 4) (x y : Reg) (n : BitVec 4) : fieldOp (formatXYN op x y n) = op := by
  unfold fieldOp formatXYN
  rw [BitVec.extractLsb'_append_eq_of_le (by decide), BitVec.extractLsb'_append_eq_of_le (by decide),
    BitVec.extractLsb'_append_eq_of_le (by decide)]; simp

@[simp] theorem fieldX_formatXYN (op : BitVec 4) (x y : Reg) (n : BitVec 4) : fieldX (formatXYN op x y n) = x := by
  unfold fieldX formatXYN
  rw [BitVec.extractLsb'_append_eq_of_le (by decide), BitVec.extractLsb'_append_eq_of_le (by decide),
    BitVec.extractLsb'_append_eq_of_add_le (by decide)]; simp

@[simp] theorem fieldY_formatXYN (op : BitVec 4) (x y : Reg) (n : BitVec 4) : fieldY (formatXYN op x y n) = y := by
  unfold fieldY formatXYN
  rw [BitVec.extractLsb'_append_eq_of_le (by decide), BitVec.extractLsb'_append_eq_of_add_le (by decide)]; simp

@[simp] theorem fieldN_formatXYN (op : BitVec 4) (x y : Reg) (n : BitVec 4) : fieldN (formatXYN op x y n) = n := by
  unfold fieldN formatXYN
  rw [BitVec.extractLsb'_append_eq_of_add_le (by decide)]; simp

theorem formatNNN_toNat (op : BitVec 4) (nnn : Addr) : (formatNNN op nnn).toNat = 4096 * op.toNat + nnn.toNat := by
  have h := nnn.isLt
  rw [formatNNN, BitVec.toNat_append, ← Nat.shiftLeft_add_eq_or_of_lt h, Nat.shiftLeft_eq]
  omega

theorem formatXKK_toNat (op : BitVec 4) (x : Reg) (kk : Byte) :
    (formatXKK op x kk).toNat = 4096 * op.toNat + 256 * x.val + kk.toNat := by
  have h := kk.isLt
  have hx := (BitVec.ofFin (w := 4) x).isLt
  rw [formatXKK, BitVec.toNat_append, ← Nat.shiftLeft_add_eq_or_of_lt h, Nat.shiftLeft_eq, BitVec.toNat_append,
    ← Nat.shiftLeft_add_eq_or_of_lt hx, Nat.shiftLeft_eq]
  have ex : (BitVec.ofFin (w := 4) x).toNat = x.val := rfl
  omega

theorem formatXYN_toNat (op : BitVec 4) (x y : Reg) (n : BitVec 4) :
    (formatXYN op x y n).toNat = 4096 * op.toNat + 256 * x.val + 16 * y.val + n.toNat := by
  have h := n.isLt
  have hx := (BitVec.ofFin (w := 4) x).isLt
  have hy := (BitVec.ofFin (w := 4) y).isLt
  rw [formatXYN, BitVec.toNat_append, ← Nat.shiftLeft_add_eq_or_of_lt h, Nat.shiftLeft_eq, BitVec.toNat_append,
    ← Nat.shiftLeft_add_eq_or_of_lt hy, Nat.shiftLeft_eq, BitVec.toNat_append, ← Nat.shiftLeft_add_eq_or_of_lt hx,
    Nat.shiftLeft_eq]
  have ex : (BitVec.ofFin (w := 4) x).toNat = x.val := rfl
  have ey : (BitVec.ofFin (w := 4) y).toNat = y.val := rfl
  omega

/-- A word is format NNN of its own fields. -/
theorem formatNNN_fields (w : Word) : formatNNN (fieldOp w) (fieldNNN w) = w := by
  unfold formatNNN fieldOp fieldNNN
  rw [BitVec.extractLsb'_append_extractLsb'_eq_extractLsb' (by decide)]
  exact BitVec.extractLsb'_eq_self

/-- A word is format XKK of its own fields. -/
theorem formatXKK_fields (w : Word) : formatXKK (fieldOp w) (fieldX w) (fieldKK w) = w := by
  unfold formatXKK fieldOp fieldX fieldKK
  simp only [BitVec.ofFin_toFin]
  rw [BitVec.extractLsb'_append_extractLsb'_eq_extractLsb' (by decide),
    BitVec.extractLsb'_append_extractLsb'_eq_extractLsb' (by decide)]
  exact BitVec.extractLsb'_eq_self

/-- A word is format XYN of its own fields. -/
theorem formatXYN_fields (w : Word) : formatXYN (fieldOp w) (fieldX w) (fieldY w) (fieldN w) = w := by
  unfold formatXYN fieldOp fieldX fieldY fieldN
  simp only [BitVec.ofFin_toFin]
  rw [BitVec.extractLsb'_append_extractLsb'_eq_extractLsb' (by decide),
    BitVec.extractLsb'_append_extractLsb'_eq_extractLsb' (by decide),
    BitVec.extractLsb'_append_extractLsb'_eq_extractLsb' (by decide)]
  exact BitVec.extractLsb'_eq_self

/-- A word's bytes in memory order make the word again (R54). -/
@[simp] theorem wordOfBytes_bytes (w : Word) : wordOfBytes (highByte w) (lowByte w) = w := by
  unfold wordOfBytes highByte lowByte
  rw [BitVec.extractLsb'_append_extractLsb'_eq_extractLsb' (by decide)]
  exact BitVec.extractLsb'_eq_self

/-- The value of a big-endian word (R54). -/
theorem wordOfBytes_toNat (hi lo : Byte) : (wordOfBytes hi lo).toNat = hi.toNat * 256 + lo.toNat := by
  have h := lo.isLt
  simp only [wordOfBytes, BitVec.toNat_append]
  rw [Nat.shiftLeft_eq, ← Nat.shiftLeft_eq, ← Nat.shiftLeft_add_eq_or_of_lt h, Nat.shiftLeft_eq]

end Sys2Proof
end

