-- ==== Sys2Proof/Laws/Memory.lean ====
section
/-! SUPPORT. The laws of memory: a read after a write to the same cell gives the byte written, a write leaves every other
cell alone, and every operation keeps the canonical form. -/

namespace Sys2Proof.Machine

/-! ### Read after write -/

theorem Memory.find_cons (a : Nat) (cell : Host.Cell) (rest : Memory) :
    Memory.find a (cell :: rest) = if cell.1 = a then some cell.2 else Memory.find a rest := rfl

theorem Memory.find_insert (a a' : Nat) (b : Byte) (m : Memory) :
    Memory.find a' (Memory.insert a b m) = if a' = a then some b else Memory.find a' m := by
  induction m with
  | nil => simp [Memory.insert, Memory.find, eq_comm]
  | cons cell rest ih =>
    unfold Memory.insert
    split
    · rw [Memory.find_cons]; simp only [eq_comm]
    · split
      · rename_i heq
        rw [Memory.find_cons, Memory.find_cons]
        by_cases h : a' = a
        · simp [h]
        · simp [h, Ne.symm h, ← heq]
      · rename_i hne
        rw [Memory.find_cons, Memory.find_cons, ih]
        by_cases hc : cell.1 = a'
        · have h : a' ≠ a := by omega
          simp [hc, h]
        · simp [hc]

theorem Memory.find_erase (a a' : Nat) (m : Memory) :
    Memory.find a' (Memory.erase a m) = if a' = a then none else Memory.find a' m := by
  induction m with
  | nil => simp [Memory.erase, Memory.find]
  | cons cell rest ih =>
    have herase : Memory.erase a (cell :: rest) =
        if cell.1 = a then Memory.erase a rest else cell :: Memory.erase a rest := by
      by_cases hc : cell.1 = a <;> simp [Memory.erase, hc]
    rw [herase]
    by_cases hc : cell.1 = a
    · rw [if_pos hc, ih, Memory.find_cons]
      by_cases h : a' = a
      · simp [h]
      · have hne : cell.1 ≠ a' := by omega
        simp [h, hne]
    · rw [if_neg hc, Memory.find_cons, Memory.find_cons, ih]
      by_cases h : a' = a
      · have hne : cell.1 ≠ a' := by omega
        simp [h, hc]
      · simp [h]

/-- What a cell reads after a write (spec/20_memory.md R45): the byte written there, every other cell as before. -/
theorem Memory.get_put (m : Memory) (a a' : Nat) (b : Byte) :
    (m.put a b).get a' = if a' = a then b else m.get a' := by
  unfold Memory.put Memory.get
  by_cases hb : b = Memory.unlisted a
  · rw [if_pos hb, Memory.find_erase]
    by_cases h : a' = a
    · simp [h, hb]
    · simp [h]
  · rw [if_neg hb, Memory.find_insert]
    by_cases h : a' = a <;> simp [h]

@[simp] theorem Memory.get_put_self (m : Memory) (a : Nat) (b : Byte) : (m.put a b).get a = b := by
  simp [Memory.get_put]

/-- What a cell reads after a run of bytes was copied in from address `a` on. -/
theorem Memory.get_putBytes (bytes : List Byte) (m : Memory) (a a' : Nat) :
    (Memory.putBytes a bytes m).get a' =
      if a ≤ a' then (bytes[a' - a]?).getD (m.get a') else m.get a' := by
  induction bytes generalizing a m with
  | nil => simp [Memory.putBytes]
  | cons b rest ih =>
    rw [Memory.putBytes, ih, Memory.get_put]
    by_cases h0 : a' = a
    · subst h0; simp
    · by_cases h1 : a ≤ a'
      · have h2 : a + 1 ≤ a' := by omega
        have h3 : a' - a = (a' - (a + 1)) + 1 := by omega
        simp [h0, h1, h2, h3]
      · have h2 : ¬ a + 1 ≤ a' := by omega
        simp [h0, h1, h2]

@[simp] theorem Memory.get_nil (a : Nat) : Memory.get [] a = Memory.unlisted a := rfl

/-! ### The canonical form -/

theorem Memory.mem_insert {a : Nat} {b : Byte} {m : Memory} {c : Host.Cell} (h : c ∈ Memory.insert a b m) :
    c = (a, b) ∨ c ∈ m := by
  induction m with
  | nil => simpa [Memory.insert] using h
  | cons cell rest ih =>
    unfold Memory.insert at h
    split at h
    · simpa using h
    · split at h
      · rcases List.mem_cons.1 h with h | h
        · exact .inl h
        · exact .inr (List.mem_cons_of_mem _ h)
      · rcases List.mem_cons.1 h with h | h
        · exact .inr (by simp [h])
        · rcases ih h with h | h
          · exact .inl h
          · exact .inr (List.mem_cons_of_mem _ h)

theorem Memory.pairwise_insert {m : Memory} (a : Nat) (b : Byte) (h : m.Pairwise (fun c d => c.1 < d.1)) :
    (Memory.insert a b m).Pairwise (fun c d => c.1 < d.1) := by
  induction m with
  | nil => simp [Memory.insert]
  | cons cell rest ih =>
    obtain ⟨hhead, htail⟩ := List.pairwise_cons.1 h
    unfold Memory.insert
    split
    · rename_i hlt
      refine List.pairwise_cons.2 ⟨fun d hd => ?_, h⟩
      rcases List.mem_cons.1 hd with rfl | hd
      · exact hlt
      · have := hhead d hd
        show a < d.1
        omega
    · split
      · rename_i heq
        exact List.pairwise_cons.2 ⟨fun d hd => by have := hhead d hd; show a < d.1; omega, htail⟩
      · refine List.pairwise_cons.2 ⟨fun d hd => ?_, ih htail⟩
        rcases Memory.mem_insert hd with rfl | hd
        · show cell.1 < a
          omega
        · exact hhead d hd

/-- A write to a cell of the machine keeps the canonical form. -/
theorem Memory.wf_put {m : Memory} {a : Nat} (b : Byte) (ha : a < Config.memSize) (h : m.wf) : (m.put a b).wf := by
  obtain ⟨hsorted, hcells⟩ := h
  unfold Memory.put
  split
  · exact ⟨hsorted.filter _, fun c hc => hcells c (List.mem_of_mem_filter hc)⟩
  · rename_i hb
    refine ⟨Memory.pairwise_insert a b hsorted, fun c hc => ?_⟩
    rcases Memory.mem_insert hc with rfl | hc
    · exact ⟨ha, hb⟩
    · exact hcells c hc

/-- Copying bytes into cells of the machine keeps the canonical form. -/
theorem Memory.wf_putBytes (bytes : List Byte) {m : Memory} {a : Nat} (ha : a + bytes.length ≤ Config.memSize)
    (h : m.wf) : (Memory.putBytes a bytes m).wf := by
  induction bytes generalizing a m with
  | nil => exact h
  | cons b rest ih =>
    simp only [List.length_cons] at ha
    exact ih (by omega) (Memory.wf_put b (by omega) h)

/-- Reset memory lists nothing, so it has the canonical form. -/
theorem Memory.wf_reset : State.reset.mem.wf := by decide

/-! ### Checked accesses (spec/20_memory.md R40) -/

/-- Everything a checked read can do. -/
theorem State.load_eq (s : State) (a : Nat) :
    s.load a = if a < Config.memSize then some (s.mem.get a) else none := rfl

theorem State.load_some {s : State} {a : Nat} (h : a < Config.memSize) : s.load a = some (s.mem.get a) := by
  simp [State.load, h]

/-- Everything a checked write can do: it answers exactly for the cells of the machine, and then changes memory alone. -/
theorem State.store_eq_some {s t : State} {a : Nat} {b : Byte} :
    s.store a b = some t ↔ a < Config.memSize ∧ t = { s with mem := s.mem.put a b } := by
  unfold State.store
  split <;> simp_all [eq_comm]

theorem State.store_eq_none {s : State} {a : Nat} {b : Byte} : s.store a b = none ↔ Config.memSize ≤ a := by
  unfold State.store
  split <;> simp_all

/-- What a checked read gives after a write. -/
theorem State.load_put (s : State) (a a' : Nat) (b : Byte) (ha : a < Config.memSize) :
    ({ s with mem := s.mem.put a b } : State).load a' = if a' = a then some b else s.load a' := by
  by_cases h : a' = a
  · subst h; simp [State.load, ha]
  · simp [State.load, Memory.get_put, h]

end Sys2Proof.Machine
end

