-- ==== Sys2Proof/Laws/State.lean ====
section
/-! SUPPORT. One lemma per field per update of the state, true by unfolding, so that no proof unfolds a record update; and
what the reads of a register, a pixel and a key give after each update. -/

namespace Sys2Proof.Machine

variable (s : State)

/-! ### setReg -/

@[simp] theorem State.setReg_v (x : Reg) (b : Byte) : (s.setReg x b).v = s.v.set x b := rfl
@[simp] theorem State.setReg_index (x : Reg) (b : Byte) : (s.setReg x b).index = s.index := rfl
@[simp] theorem State.setReg_pc (x : Reg) (b : Byte) : (s.setReg x b).pc = s.pc := rfl
@[simp] theorem State.setReg_sp (x : Reg) (b : Byte) : (s.setReg x b).sp = s.sp := rfl
@[simp] theorem State.setReg_stack (x : Reg) (b : Byte) : (s.setReg x b).stack = s.stack := rfl
@[simp] theorem State.setReg_dt (x : Reg) (b : Byte) : (s.setReg x b).dt = s.dt := rfl
@[simp] theorem State.setReg_st (x : Reg) (b : Byte) : (s.setReg x b).st = s.st := rfl
@[simp] theorem State.setReg_fb (x : Reg) (b : Byte) : (s.setReg x b).fb = s.fb := rfl
@[simp] theorem State.setReg_keys (x : Reg) (b : Byte) : (s.setReg x b).keys = s.keys := rfl
@[simp] theorem State.setReg_mem (x : Reg) (b : Byte) : (s.setReg x b).mem = s.mem := rfl
@[simp] theorem State.setReg_rnd (x : Reg) (b : Byte) : (s.setReg x b).rnd = s.rnd := rfl
@[simp] theorem State.setReg_draws (x : Reg) (b : Byte) : (s.setReg x b).draws = s.draws := rfl
@[simp] theorem State.setReg_hostOps (x : Reg) (b : Byte) : (s.setReg x b).hostOps = s.hostOps := rfl

/-! ### setPc -/

@[simp] theorem State.setPc_v (p : Word) : (s.setPc p).v = s.v := rfl
@[simp] theorem State.setPc_index (p : Word) : (s.setPc p).index = s.index := rfl
@[simp] theorem State.setPc_pc (p : Word) : (s.setPc p).pc = p := rfl
@[simp] theorem State.setPc_sp (p : Word) : (s.setPc p).sp = s.sp := rfl
@[simp] theorem State.setPc_stack (p : Word) : (s.setPc p).stack = s.stack := rfl
@[simp] theorem State.setPc_dt (p : Word) : (s.setPc p).dt = s.dt := rfl
@[simp] theorem State.setPc_st (p : Word) : (s.setPc p).st = s.st := rfl
@[simp] theorem State.setPc_fb (p : Word) : (s.setPc p).fb = s.fb := rfl
@[simp] theorem State.setPc_keys (p : Word) : (s.setPc p).keys = s.keys := rfl
@[simp] theorem State.setPc_mem (p : Word) : (s.setPc p).mem = s.mem := rfl
@[simp] theorem State.setPc_rnd (p : Word) : (s.setPc p).rnd = s.rnd := rfl
@[simp] theorem State.setPc_draws (p : Word) : (s.setPc p).draws = s.draws := rfl
@[simp] theorem State.setPc_hostOps (p : Word) : (s.setPc p).hostOps = s.hostOps := rfl

/-! ### setIndex -/

@[simp] theorem State.setIndex_v (a : Word) : (s.setIndex a).v = s.v := rfl
@[simp] theorem State.setIndex_index (a : Word) : (s.setIndex a).index = a := rfl
@[simp] theorem State.setIndex_pc (a : Word) : (s.setIndex a).pc = s.pc := rfl
@[simp] theorem State.setIndex_sp (a : Word) : (s.setIndex a).sp = s.sp := rfl
@[simp] theorem State.setIndex_stack (a : Word) : (s.setIndex a).stack = s.stack := rfl
@[simp] theorem State.setIndex_dt (a : Word) : (s.setIndex a).dt = s.dt := rfl
@[simp] theorem State.setIndex_st (a : Word) : (s.setIndex a).st = s.st := rfl
@[simp] theorem State.setIndex_fb (a : Word) : (s.setIndex a).fb = s.fb := rfl
@[simp] theorem State.setIndex_keys (a : Word) : (s.setIndex a).keys = s.keys := rfl
@[simp] theorem State.setIndex_mem (a : Word) : (s.setIndex a).mem = s.mem := rfl
@[simp] theorem State.setIndex_rnd (a : Word) : (s.setIndex a).rnd = s.rnd := rfl
@[simp] theorem State.setIndex_draws (a : Word) : (s.setIndex a).draws = s.draws := rfl
@[simp] theorem State.setIndex_hostOps (a : Word) : (s.setIndex a).hostOps = s.hostOps := rfl

/-! ### setDt -/

@[simp] theorem State.setDt_v (b : Byte) : (s.setDt b).v = s.v := rfl
@[simp] theorem State.setDt_index (b : Byte) : (s.setDt b).index = s.index := rfl
@[simp] theorem State.setDt_pc (b : Byte) : (s.setDt b).pc = s.pc := rfl
@[simp] theorem State.setDt_sp (b : Byte) : (s.setDt b).sp = s.sp := rfl
@[simp] theorem State.setDt_stack (b : Byte) : (s.setDt b).stack = s.stack := rfl
@[simp] theorem State.setDt_dt (b : Byte) : (s.setDt b).dt = b := rfl
@[simp] theorem State.setDt_st (b : Byte) : (s.setDt b).st = s.st := rfl
@[simp] theorem State.setDt_fb (b : Byte) : (s.setDt b).fb = s.fb := rfl
@[simp] theorem State.setDt_keys (b : Byte) : (s.setDt b).keys = s.keys := rfl
@[simp] theorem State.setDt_mem (b : Byte) : (s.setDt b).mem = s.mem := rfl
@[simp] theorem State.setDt_rnd (b : Byte) : (s.setDt b).rnd = s.rnd := rfl
@[simp] theorem State.setDt_draws (b : Byte) : (s.setDt b).draws = s.draws := rfl
@[simp] theorem State.setDt_hostOps (b : Byte) : (s.setDt b).hostOps = s.hostOps := rfl

/-! ### setSt -/

@[simp] theorem State.setSt_v (b : Byte) : (s.setSt b).v = s.v := rfl
@[simp] theorem State.setSt_index (b : Byte) : (s.setSt b).index = s.index := rfl
@[simp] theorem State.setSt_pc (b : Byte) : (s.setSt b).pc = s.pc := rfl
@[simp] theorem State.setSt_sp (b : Byte) : (s.setSt b).sp = s.sp := rfl
@[simp] theorem State.setSt_stack (b : Byte) : (s.setSt b).stack = s.stack := rfl
@[simp] theorem State.setSt_dt (b : Byte) : (s.setSt b).dt = s.dt := rfl
@[simp] theorem State.setSt_st (b : Byte) : (s.setSt b).st = b := rfl
@[simp] theorem State.setSt_fb (b : Byte) : (s.setSt b).fb = s.fb := rfl
@[simp] theorem State.setSt_keys (b : Byte) : (s.setSt b).keys = s.keys := rfl
@[simp] theorem State.setSt_mem (b : Byte) : (s.setSt b).mem = s.mem := rfl
@[simp] theorem State.setSt_rnd (b : Byte) : (s.setSt b).rnd = s.rnd := rfl
@[simp] theorem State.setSt_draws (b : Byte) : (s.setSt b).draws = s.draws := rfl
@[simp] theorem State.setSt_hostOps (b : Byte) : (s.setSt b).hostOps = s.hostOps := rfl

/-! ### setPixel -/

@[simp] theorem State.setPixel_v (y : Fin 32) (x : Fin 64) (on : Bool) : (s.setPixel y x on).v = s.v := rfl
@[simp] theorem State.setPixel_index (y : Fin 32) (x : Fin 64) (on : Bool) : (s.setPixel y x on).index = s.index := rfl
@[simp] theorem State.setPixel_pc (y : Fin 32) (x : Fin 64) (on : Bool) : (s.setPixel y x on).pc = s.pc := rfl
@[simp] theorem State.setPixel_sp (y : Fin 32) (x : Fin 64) (on : Bool) : (s.setPixel y x on).sp = s.sp := rfl
@[simp] theorem State.setPixel_stack (y : Fin 32) (x : Fin 64) (on : Bool) : (s.setPixel y x on).stack = s.stack := rfl
@[simp] theorem State.setPixel_dt (y : Fin 32) (x : Fin 64) (on : Bool) : (s.setPixel y x on).dt = s.dt := rfl
@[simp] theorem State.setPixel_st (y : Fin 32) (x : Fin 64) (on : Bool) : (s.setPixel y x on).st = s.st := rfl
@[simp] theorem State.setPixel_fb (y : Fin 32) (x : Fin 64) (on : Bool) : (s.setPixel y x on).fb = s.fb.set y (s.fb[y].set x on) := rfl
@[simp] theorem State.setPixel_keys (y : Fin 32) (x : Fin 64) (on : Bool) : (s.setPixel y x on).keys = s.keys := rfl
@[simp] theorem State.setPixel_mem (y : Fin 32) (x : Fin 64) (on : Bool) : (s.setPixel y x on).mem = s.mem := rfl
@[simp] theorem State.setPixel_rnd (y : Fin 32) (x : Fin 64) (on : Bool) : (s.setPixel y x on).rnd = s.rnd := rfl
@[simp] theorem State.setPixel_draws (y : Fin 32) (x : Fin 64) (on : Bool) : (s.setPixel y x on).draws = s.draws := rfl
@[simp] theorem State.setPixel_hostOps (y : Fin 32) (x : Fin 64) (on : Bool) : (s.setPixel y x on).hostOps = s.hostOps := rfl

/-! ### clearDisplay -/

@[simp] theorem State.clearDisplay_v : (s.clearDisplay).v = s.v := rfl
@[simp] theorem State.clearDisplay_index : (s.clearDisplay).index = s.index := rfl
@[simp] theorem State.clearDisplay_pc : (s.clearDisplay).pc = s.pc := rfl
@[simp] theorem State.clearDisplay_sp : (s.clearDisplay).sp = s.sp := rfl
@[simp] theorem State.clearDisplay_stack : (s.clearDisplay).stack = s.stack := rfl
@[simp] theorem State.clearDisplay_dt : (s.clearDisplay).dt = s.dt := rfl
@[simp] theorem State.clearDisplay_st : (s.clearDisplay).st = s.st := rfl
@[simp] theorem State.clearDisplay_fb : (s.clearDisplay).fb = Vector.replicate 32 (Vector.replicate 64 false) := rfl
@[simp] theorem State.clearDisplay_keys : (s.clearDisplay).keys = s.keys := rfl
@[simp] theorem State.clearDisplay_mem : (s.clearDisplay).mem = s.mem := rfl
@[simp] theorem State.clearDisplay_rnd : (s.clearDisplay).rnd = s.rnd := rfl
@[simp] theorem State.clearDisplay_draws : (s.clearDisplay).draws = s.draws := rfl
@[simp] theorem State.clearDisplay_hostOps : (s.clearDisplay).hostOps = s.hostOps := rfl

/-! ### nextDraw -/

@[simp] theorem State.nextDraw_v : s.nextDraw.v = s.v := rfl
@[simp] theorem State.nextDraw_index : s.nextDraw.index = s.index := rfl
@[simp] theorem State.nextDraw_pc : s.nextDraw.pc = s.pc := rfl
@[simp] theorem State.nextDraw_sp : s.nextDraw.sp = s.sp := rfl
@[simp] theorem State.nextDraw_stack : s.nextDraw.stack = s.stack := rfl
@[simp] theorem State.nextDraw_dt : s.nextDraw.dt = s.dt := rfl
@[simp] theorem State.nextDraw_st : s.nextDraw.st = s.st := rfl
@[simp] theorem State.nextDraw_fb : s.nextDraw.fb = s.fb := rfl
@[simp] theorem State.nextDraw_keys : s.nextDraw.keys = s.keys := rfl
@[simp] theorem State.nextDraw_mem : s.nextDraw.mem = s.mem := rfl
@[simp] theorem State.nextDraw_rnd : s.nextDraw.rnd = s.rnd := rfl
@[simp] theorem State.nextDraw_draws : s.nextDraw.draws = s.draws + 1 := rfl
@[simp] theorem State.nextDraw_hostOps : s.nextDraw.hostOps = s.hostOps := rfl

/-! ### beginCycle -/

@[simp] theorem State.beginCycle_v (r : Option Byte) : (s.beginCycle r).v = s.v := rfl
@[simp] theorem State.beginCycle_index (r : Option Byte) : (s.beginCycle r).index = s.index := rfl
@[simp] theorem State.beginCycle_pc (r : Option Byte) : (s.beginCycle r).pc = s.pc + 2 := rfl
@[simp] theorem State.beginCycle_sp (r : Option Byte) : (s.beginCycle r).sp = s.sp := rfl
@[simp] theorem State.beginCycle_stack (r : Option Byte) : (s.beginCycle r).stack = s.stack := rfl
@[simp] theorem State.beginCycle_dt (r : Option Byte) : (s.beginCycle r).dt = s.dt := rfl
@[simp] theorem State.beginCycle_st (r : Option Byte) : (s.beginCycle r).st = s.st := rfl
@[simp] theorem State.beginCycle_fb (r : Option Byte) : (s.beginCycle r).fb = s.fb := rfl
@[simp] theorem State.beginCycle_keys (r : Option Byte) : (s.beginCycle r).keys = s.keys := rfl
@[simp] theorem State.beginCycle_mem (r : Option Byte) : (s.beginCycle r).mem = s.mem := rfl
@[simp] theorem State.beginCycle_rnd (r : Option Byte) : (s.beginCycle r).rnd = r := rfl
@[simp] theorem State.beginCycle_draws (r : Option Byte) : (s.beginCycle r).draws = s.draws := rfl
@[simp] theorem State.beginCycle_hostOps (r : Option Byte) : (s.beginCycle r).hostOps = s.hostOps := rfl

/-! ### tick -/

@[simp] theorem State.tick_v : (s.tick).v = s.v := rfl
@[simp] theorem State.tick_index : (s.tick).index = s.index := rfl
@[simp] theorem State.tick_pc : (s.tick).pc = s.pc := rfl
@[simp] theorem State.tick_sp : (s.tick).sp = s.sp := rfl
@[simp] theorem State.tick_stack : (s.tick).stack = s.stack := rfl
@[simp] theorem State.tick_dt : (s.tick).dt = timerTick s.dt := rfl
@[simp] theorem State.tick_st : (s.tick).st = timerTick s.st := rfl
@[simp] theorem State.tick_fb : (s.tick).fb = s.fb := rfl
@[simp] theorem State.tick_keys : (s.tick).keys = s.keys := rfl
@[simp] theorem State.tick_mem : (s.tick).mem = s.mem := rfl
@[simp] theorem State.tick_rnd : (s.tick).rnd = s.rnd := rfl
@[simp] theorem State.tick_draws : (s.tick).draws = s.draws := rfl
@[simp] theorem State.tick_hostOps : (s.tick).hostOps = s.hostOps := rfl

/-! ### setKey -/

@[simp] theorem State.setKey_v (k : Key) (p : Bool) : (s.setKey k p).v = s.v := rfl
@[simp] theorem State.setKey_index (k : Key) (p : Bool) : (s.setKey k p).index = s.index := rfl
@[simp] theorem State.setKey_pc (k : Key) (p : Bool) : (s.setKey k p).pc = s.pc := rfl
@[simp] theorem State.setKey_sp (k : Key) (p : Bool) : (s.setKey k p).sp = s.sp := rfl
@[simp] theorem State.setKey_stack (k : Key) (p : Bool) : (s.setKey k p).stack = s.stack := rfl
@[simp] theorem State.setKey_dt (k : Key) (p : Bool) : (s.setKey k p).dt = s.dt := rfl
@[simp] theorem State.setKey_st (k : Key) (p : Bool) : (s.setKey k p).st = s.st := rfl
@[simp] theorem State.setKey_fb (k : Key) (p : Bool) : (s.setKey k p).fb = s.fb := rfl
@[simp] theorem State.setKey_keys (k : Key) (p : Bool) : (s.setKey k p).keys = s.keys.set k p := rfl
@[simp] theorem State.setKey_mem (k : Key) (p : Bool) : (s.setKey k p).mem = s.mem := rfl
@[simp] theorem State.setKey_rnd (k : Key) (p : Bool) : (s.setKey k p).rnd = s.rnd := rfl
@[simp] theorem State.setKey_draws (k : Key) (p : Bool) : (s.setKey k p).draws = s.draws := rfl
@[simp] theorem State.setKey_hostOps (k : Key) (p : Bool) : (s.setKey k p).hostOps = s.hostOps := rfl

/-! ### resetMachine -/

@[simp] theorem State.resetMachine_v : (s.resetMachine).v = State.reset.v := rfl
@[simp] theorem State.resetMachine_index : (s.resetMachine).index = State.reset.index := rfl
@[simp] theorem State.resetMachine_pc : (s.resetMachine).pc = State.reset.pc := rfl
@[simp] theorem State.resetMachine_sp : (s.resetMachine).sp = State.reset.sp := rfl
@[simp] theorem State.resetMachine_stack : (s.resetMachine).stack = State.reset.stack := rfl
@[simp] theorem State.resetMachine_dt : (s.resetMachine).dt = State.reset.dt := rfl
@[simp] theorem State.resetMachine_st : (s.resetMachine).st = State.reset.st := rfl
@[simp] theorem State.resetMachine_fb : (s.resetMachine).fb = State.reset.fb := rfl
@[simp] theorem State.resetMachine_keys : (s.resetMachine).keys = State.reset.keys := rfl
@[simp] theorem State.resetMachine_mem : (s.resetMachine).mem = State.reset.mem := rfl
@[simp] theorem State.resetMachine_rnd : (s.resetMachine).rnd = s.rnd := rfl
@[simp] theorem State.resetMachine_draws : (s.resetMachine).draws = s.draws := rfl
@[simp] theorem State.resetMachine_hostOps : (s.resetMachine).hostOps = s.hostOps := rfl

/-! ### Reads of registers, pixels and keys -/

@[simp] theorem State.reg_setReg_self (x : Reg) (b : Byte) : (s.setReg x b).reg x = b := by
  simp [State.reg, State.setReg]

theorem State.reg_setReg_ne {x r : Reg} (b : Byte) (h : r ≠ x) : (s.setReg x b).reg r = s.reg r := by
  have hv : x.val ≠ r.val := fun e => h (Fin.ext e.symm)
  simp [State.reg, State.setReg, Vector.getElem_set_ne _ _ hv]

/-- What a register reads after a register write. -/
theorem State.reg_setReg (x r : Reg) (b : Byte) : (s.setReg x b).reg r = if r = x then b else s.reg r := by
  by_cases h : r = x
  · subst h; simp
  · simp [h, s.reg_setReg_ne b h]

/-- A register read depends on the register file alone. -/
theorem State.reg_congr {s t : State} (h : t.v = s.v) (r : Reg) : t.reg r = s.reg r := by simp [State.reg, h]

@[simp] theorem State.reg_setPc (p : Word) (r : Reg) : (s.setPc p).reg r = s.reg r := rfl
@[simp] theorem State.reg_setIndex (a : Word) (r : Reg) : (s.setIndex a).reg r = s.reg r := rfl
@[simp] theorem State.reg_setDt (b : Byte) (r : Reg) : (s.setDt b).reg r = s.reg r := rfl
@[simp] theorem State.reg_setSt (b : Byte) (r : Reg) : (s.setSt b).reg r = s.reg r := rfl
@[simp] theorem State.reg_clearDisplay (r : Reg) : s.clearDisplay.reg r = s.reg r := rfl
@[simp] theorem State.reg_nextDraw (r : Reg) : s.nextDraw.reg r = s.reg r := rfl
@[simp] theorem State.reg_beginCycle (c : Option Byte) (r : Reg) : (s.beginCycle c).reg r = s.reg r := rfl
@[simp] theorem State.reg_setPixel (y : Fin 32) (x : Fin 64) (on : Bool) (r : Reg) :
    (s.setPixel y x on).reg r = s.reg r := rfl

/-- What a pixel reads after a pixel write. -/
theorem State.pixel_setPixel (y y' : Fin 32) (x x' : Fin 64) (on : Bool) :
    (s.setPixel y x on).pixel y' x' = if y' = y ∧ x' = x then on else s.pixel y' x' := by
  by_cases hy : y' = y
  · subst hy
    by_cases hx : x' = x
    · subst hx; simp [State.pixel]
    · have hv : x.val ≠ x'.val := fun e => hx (Fin.ext e.symm)
      simp [State.pixel, hx, Vector.getElem_set_ne _ _ hv]
  · have hv : y.val ≠ y'.val := fun e => hy (Fin.ext e.symm)
    simp [State.pixel, hy, Vector.getElem_set_ne _ _ hv]

@[simp] theorem State.pixel_setReg (x : Reg) (b : Byte) (py : Fin 32) (px : Fin 64) :
    (s.setReg x b).pixel py px = s.pixel py px := rfl
@[simp] theorem State.pixel_nextDraw (py : Fin 32) (px : Fin 64) : s.nextDraw.pixel py px = s.pixel py px := rfl
@[simp] theorem State.pixel_beginCycle (c : Option Byte) (py : Fin 32) (px : Fin 64) :
    (s.beginCycle c).pixel py px = s.pixel py px := rfl
@[simp] theorem State.pixel_clearDisplay (py : Fin 32) (px : Fin 64) : s.clearDisplay.pixel py px = false := by
  simp [State.pixel]

/-- What a key reads after KEY_SET. -/
theorem State.keyPressed_setKey (k j : Key) (p : Bool) :
    (s.setKey k p).keyPressed j = if j = k then p else s.keyPressed j := by
  by_cases h : j = k
  · subst h; simp [State.keyPressed]
  · have hv : k.val ≠ j.val := fun e => h (Fin.ext e.symm)
    simp [State.keyPressed, h, Vector.getElem_set_ne _ _ hv]

/-- A load depends on memory alone. -/
theorem State.load_congr {s t : State} (h : t.mem = s.mem) (a : Nat) : t.load a = s.load a := by simp [State.load, h]

@[simp] theorem State.load_setReg (x : Reg) (b : Byte) (a : Nat) : (s.setReg x b).load a = s.load a := rfl
@[simp] theorem State.load_nextDraw (a : Nat) : s.nextDraw.load a = s.load a := rfl
@[simp] theorem State.load_beginCycle (c : Option Byte) (a : Nat) : (s.beginCycle c).load a = s.load a := rfl
@[simp] theorem State.load_setPixel (y : Fin 32) (x : Fin 64) (on : Bool) (a : Nat) :
    (s.setPixel y x on).load a = s.load a := rfl
@[simp] theorem State.effAddr_setReg (x : Reg) (b : Byte) (k : Nat) : (s.setReg x b).effAddr k = s.effAddr k := rfl
@[simp] theorem State.effAddr_nextDraw (k : Nat) : s.nextDraw.effAddr k = s.effAddr k := rfl
@[simp] theorem State.effAddr_beginCycle (c : Option Byte) (k : Nat) : (s.beginCycle c).effAddr k = s.effAddr k := rfl

end Sys2Proof.Machine
end

