-- ==== Sys2Proof/Laws/Ops.lean ====
section
/-! SUPPORT. One lemma per shared operation that says everything it can do; proofs cite these and do not unfold the
operations. -/

namespace Sys2Proof.Machine

/-! ### Failing -/

/-- A handler that can only fail OutOfBounds answers a next state exactly when its work gives one. -/
theorem orOutOfBounds_eq_next {ins : Instr} {s t : State} {o : Option State} :
    orOutOfBounds ins s o = .next t ↔ o = some t := by
  cases o <;> simp [orOutOfBounds, fail]

theorem orOutOfBounds_eq_fault {ins : Instr} {s : State} {o : Option State} {f : Fault} :
    orOutOfBounds ins s o = .fault f ↔ o = none ∧ f = .outOfBounds (s.pc - 2) (some (encode ins)) := by
  cases o <;> simp [orOutOfBounds, fail, outOfBoundsAt, eq_comm]

theorem orOutOfBounds_ne_refused {ins : Instr} {s : State} {o : Option State} {m : Refusal} :
    orOutOfBounds ins s o ≠ .refused m := by
  cases o <;> simp [orOutOfBounds, fail]

@[simp] theorem orOutOfBounds_some (ins : Instr) (s t : State) : orOutOfBounds ins s (some t) = .next t := rfl

@[simp] theorem orOutOfBounds_none (ins : Instr) (s : State) :
    orOutOfBounds ins s none = .fault (.outOfBounds (s.pc - 2) (some (encode ins))) := rfl

/-! ### Skips, the stack, the fetch -/

/-- A skip changes pc alone (spec/41_flow.md R82). -/
theorem State.skipIf_eq (s : State) (c : Bool) : s.skipIf c = s.setPc (if c then s.pc + 2 else s.pc) := by
  cases c <;> rfl

/-- A push answers exactly when the entry exists, and then writes that entry and SP. -/
theorem State.push_eq_some {s t : State} {a : Word} :
    s.push a = some t ↔
      ∃ h : s.sp.toNat < Config.stackDepth, t = { s with stack := s.stack.set s.sp.toNat a h, sp := s.sp + 1 } := by
  unfold State.push
  split <;> simp_all [eq_comm]

theorem State.push_eq_none {s : State} {a : Word} : s.push a = none ↔ Config.stackDepth ≤ s.sp.toNat := by
  unfold State.push
  split <;> simp_all

/-- A pop answers exactly when the entry exists, and then writes SP alone. -/
theorem State.pop_eq_some {s t : State} {a : Word} :
    s.pop = some (a, t) ↔
      ∃ h : (s.sp - 1).toNat < Config.stackDepth, a = s.stack[(s.sp - 1).toNat]'h ∧ t = { s with sp := s.sp - 1 } := by
  unfold State.pop
  by_cases h : (s.sp - 1).toNat < Config.stackDepth
  · rw [dif_pos h, Option.some.injEq, Prod.mk.injEq]
    exact ⟨fun e => ⟨h, e.1.symm, e.2.symm⟩, fun ⟨_, e1, e2⟩ => ⟨e1.symm, e2.symm⟩⟩
  · rw [dif_neg h]
    exact ⟨fun e => (by cases e), fun ⟨e, _⟩ => absurd e h⟩

theorem State.pop_eq_none {s : State} : s.pop = none ↔ Config.stackDepth ≤ (s.sp - 1).toNat := by
  unfold State.pop
  by_cases h : (s.sp - 1).toNat < Config.stackDepth
  · rw [dif_pos h]
    exact ⟨fun e => (by cases e), fun e => absurd e (Nat.not_le.2 h)⟩
  · rw [dif_neg h]
    exact ⟨fun _ => Nat.not_lt.1 h, fun _ => rfl⟩

/-- The fetch from a legal address reads the two cells at pc, the first as the high byte (spec/40_cycle.md R69). -/
theorem State.fetchWord_legal {s : State} (h : FetchLegal s.pc) :
    s.fetchWord = some (wordOfBytes (s.mem.get s.pc.toNat) (s.mem.get (s.pc.toNat + 1))) := by
  have h0 : s.pc.toNat < Config.memSize := by have := h.2; omega
  simp [State.fetchWord, h, State.load_some h0, State.load_some h.2]

theorem State.fetchWord_illegal {s : State} (h : ¬ FetchLegal s.pc) : s.fetchWord = none := by
  simp only [State.fetchWord, if_neg h]

/-- The fetch answers exactly for a legal address (R68). -/
theorem State.fetchWord_eq_none {s : State} : s.fetchWord = none ↔ ¬ FetchLegal s.pc := by
  by_cases h : FetchLegal s.pc
  · rw [State.fetchWord_legal h]; simp [h]
  · simp only [State.fetchWord_illegal h, h, not_false_eq_true]

/-- The advance is undone by the report's P (R72, spec/60_exceptions.md R124). -/
@[simp] theorem pc_add_sub (p : Word) : p + 2 - 2 = p := by simp

/-! ### Flags -/

/-- What the registers hold after a flag and a result: the destination its result, VF the flag unless it is the destination,
every other register as before. -/
theorem flagThenResult_reg (flag : Byte) (x r : Reg) (result : State → Byte) (s : State) :
    (flagThenResult flag x result s).reg r =
      if r = x then result (s.setReg vf flag) else if r = vf then flag else s.reg r := by
  simp [flagThenResult, State.reg_setReg]

/-- A flag and a result change general registers alone. -/
theorem flagThenResult_frame (flag : Byte) (x : Reg) (result : State → Byte) (s : State) :
    flagThenResult flag x result s = { s with v := (flagThenResult flag x result s).v } := rfl

theorem flagByte_eq (c : Bool) : flagByte c = if c then 1 else 0 := rfl

theorem wideSum_toNat (a b : Byte) : (wideSum a b).toNat = a.toNat + b.toNat := by
  have ha := a.isLt
  have hb := b.isLt
  simp [wideSum]
  omega

/-- The carry out of bit 7 is a sum above 255 (spec/42_alu.md R96). -/
theorem carryFlag_eq (a b : Byte) : carryFlag a b = if a.toNat + b.toNat > 255 then 1 else 0 := by
  simp [carryFlag, flagByte_eq, wideSum_toNat]

theorem greaterFlag_eq (a b : Byte) : greaterFlag a b = if a.toNat > b.toNat then 1 else 0 := by
  simp [greaterFlag, flagByte_eq]

theorem lowBitFlag_toNat (a : Byte) : (lowBitFlag a).toNat = a.toNat % 2 := by
  revert a; decide +revert

theorem highBitFlag_toNat (a : Byte) : (highBitFlag a).toNat = a.toNat / 128 := by
  revert a; decide +revert

/-! ### Operand forms -/

theorem mem_regsUpTo {r x : Reg} : r ∈ regsUpTo x ↔ r ≤ x := by
  revert r x; decide +revert

theorem regsUpTo_length (x : Reg) : (regsUpTo x).length = x.val + 1 := by
  revert x; decide +revert

theorem regsUpTo_getElem? {r x : Reg} (h : r ≤ x) : (regsUpTo x)[r.val]? = some r := by
  revert r x; decide +revert

theorem keyOf_eq_some {b : Byte} {k : Key} : keyOf b = some k ↔ b.toNat = k.val := by
  unfold keyOf
  split
  · rw [Option.some.injEq, Fin.ext_iff]
  · have := k.isLt
    simp
    omega

theorem keyOf_eq_none {b : Byte} : keyOf b = none ↔ 15 < b.toNat := by
  unfold keyOf
  split
  · simp; omega
  · simp; omega

/-- The digits of a byte (spec/43_index_memory.md R108). -/
theorem bcd_toNat (b : Byte) : (bcdHundreds b).toNat = b.toNat / 100 ∧ (bcdTens b).toNat = b.toNat / 10 % 10 ∧
    (bcdOnes b).toNat = b.toNat % 10 := by
  simp [bcdHundreds, bcdTens, bcdOnes]

theorem glyphAddr_toNat (b : Byte) : (glyphAddr b).toNat = 0x50 + 5 * b.toNat := by
  have := b.isLt
  simp [glyphAddr, zext16, Config.fontBase]
  omega

theorem zext16_toNat {n : Nat} (h : n ≤ 16) (b : BitVec n) : (zext16 b).toNat = b.toNat := by
  have h1 := b.isLt
  have h2 : 2 ^ n ≤ 2 ^ 16 := Nat.pow_le_pow_right (by decide) h
  simp [zext16]
  omega

/-! ### The keypad -/

theorem mem_allKeys (k : Key) : k ∈ allKeys := by
  revert k; decide +revert

/-- No key is found exactly when none is pressed (spec/45_keys_timers.md R120). -/
theorem State.lowestKey_eq_none {s : State} : s.lowestKey = none ↔ ∀ k : Key, s.keyPressed k = false := by
  simp only [State.lowestKey, List.find?_eq_none, Bool.not_eq_true]
  exact ⟨fun h k => h k (mem_allKeys k), fun h k _ => h k⟩

/-- The key found is pressed, and no lower one is (R120). -/
theorem State.lowestKey_eq_some {s : State} {k : Key} :
    s.lowestKey = some k ↔ s.keyPressed k = true ∧ ∀ j : Key, j < k → s.keyPressed j = false := by
  have hsplit : ∀ k : Key, allKeys = allKeys.take k.val ++ k :: allKeys.drop (k.val + 1) := by decide
  have hlow : ∀ j k : Key, j < k → j ∈ allKeys.take k.val := by decide
  constructor
  · intro h
    refine ⟨List.find?_some h, fun j hj => ?_⟩
    cases hp : s.keyPressed j with
    | false => rfl
    | true =>
      exfalso
      have hj' : (allKeys.take k.val).find? s.keyPressed ≠ none := by
        intro hn
        exact (List.find?_eq_none.1 hn j (hlow j k hj)) hp
      obtain ⟨i, hi⟩ := Option.ne_none_iff_exists'.1 hj'
      have hmem := List.mem_of_find?_eq_some hi
      have hlt : ∀ i k : Key, i ∈ allKeys.take k.val → i < k := by decide
      have := hlt i k hmem
      unfold State.lowestKey at h
      rw [hsplit k, List.find?_append, hi] at h
      rw [Option.some_or, Option.some.injEq] at h
      subst h
      exact lt_irrefl _ this
  · rintro ⟨hk, hlt⟩
    have hn : (allKeys.take k.val).find? s.keyPressed = none := by
      have hlt' : ∀ i k : Key, i ∈ allKeys.take k.val → i < k := by decide
      exact List.find?_eq_none.2 fun j hj => by simp [hlt j (hlt' j k hj)]
    unfold State.lowestKey
    rw [hsplit k, List.find?_append, hn]
    simp [hk]

/-! ### Block transfers -/

/-- Everything a run of stores can do: it answers exactly when its last cell exists, and then changes memory alone, as
copying the bytes in does. -/
theorem storeFrom_eq (bytes : List Byte) (k : Nat) (s : State) :
    storeFrom k bytes s =
      if bytes = [] ∨ s.effAddr k + bytes.length ≤ Config.memSize then
        some { s with mem := Memory.putBytes (s.effAddr k) bytes s.mem }
      else none := by
  induction bytes generalizing k s with
  | nil => simp [storeFrom, Memory.putBytes]
  | cons b rest ih =>
    have hstep : s.effAddr (k + 1) = s.effAddr k + 1 := by simp [State.effAddr]; omega
    rw [storeFrom]
    by_cases h0 : s.effAddr k < Config.memSize
    · have hs : s.store (s.effAddr k) b = some { s with mem := s.mem.put (s.effAddr k) b } :=
        State.store_eq_some.2 ⟨h0, rfl⟩
      rw [hs, Option.bind_some, ih]
      have he : State.effAddr { s with mem := s.mem.put (s.effAddr k) b } (k + 1) = s.effAddr k + 1 := hstep
      rw [he]
      simp only [Memory.putBytes, List.length_cons]
      by_cases h1 : s.effAddr k + (rest.length + 1) ≤ Config.memSize
      · have h2 : s.effAddr k + 1 + rest.length ≤ Config.memSize := by omega
        simp [h1, h2]
      · have h2 : ¬ s.effAddr k + 1 + rest.length ≤ Config.memSize := by omega
        have h3 : rest ≠ [] := by rintro rfl; simp at h1; omega
        simp [h1, h2, h3]
    · have hs : s.store (s.effAddr k) b = none := State.store_eq_none.2 (by omega)
      have h1 : ¬ s.effAddr k + (b :: rest).length ≤ Config.memSize := by
        simp only [List.length_cons]; omega
      rw [hs, Option.bind_none, if_neg]
      simp only [reduceCtorEq, false_or]
      exact h1

/-- Everything a run of register loads can do: it answers exactly when every cell exists, and then the loaded registers hold
their cells and nothing else changes. -/
theorem loadRegs_spec (rs : List Reg) (s : State) :
    (∀ t, loadRegs rs s = some t →
      (∀ r ∈ rs, s.effAddr r.val < Config.memSize) ∧ t = { s with v := t.v } ∧
        ∀ r : Reg, t.reg r = if r ∈ rs then s.mem.get (s.effAddr r.val) else s.reg r) ∧
    (loadRegs rs s = none → ∃ r ∈ rs, Config.memSize ≤ s.effAddr r.val) := by
  induction rs generalizing s with
  | nil => simp [loadRegs]
  | cons q rest ih =>
    rw [loadRegs]
    by_cases hq : s.effAddr q.val < Config.memSize
    · rw [State.load_some hq, Option.bind_some]
      obtain ⟨ih1, ih2⟩ := ih (s.setReg q (s.mem.get (s.effAddr q.val)))
      constructor
      · intro t ht
        obtain ⟨h1, h2, h3⟩ := ih1 t ht
        refine ⟨fun r hr => ?_, h2, fun r => ?_⟩
        · rcases List.mem_cons.1 hr with rfl | hr
          · exact hq
          · exact h1 r hr
        · rw [h3 r, State.reg_setReg]
          by_cases hr : r ∈ rest
          · simp [hr]
          · by_cases hrq : r = q
            · subst hrq; simp [hr]
            · simp [hr, hrq]
      · intro hn
        obtain ⟨r, hr, hge⟩ := ih2 hn
        exact ⟨r, List.mem_cons_of_mem _ hr, hge⟩
    · have hl : s.load (s.effAddr q.val) = none := by simp [State.load_eq, hq]
      rw [hl, Option.bind_none]
      exact ⟨by simp, fun _ => ⟨q, List.mem_cons_self, by omega⟩⟩

end Sys2Proof.Machine
end

