-- ==== Sys2Proof/Laws/Cycle.lean ====
section
/-! SUPPORT. What a cycle and the host's operations can do, said once, and that an instruction placed for the next fetch is
the one fetched. -/

namespace Sys2Proof.Machine

/-- A cycle whose fetched word decodes is the handler in the state after the advance (spec/40_cycle.md R69, R70). -/
theorem cycle_decoded {r : Option Byte} {s : State} {w : Word} {ins : Instr} (hf : s.fetchWord = some w)
    (hd : decode w = some ins) : cycle r s = exec ins (s.beginCycle r) := by
  simp only [cycle, hf, hd]

/-- Everything a successful cycle can be (R73): a legal fetch, a known word, and a handler that completes. -/
theorem cycle_eq_next {r : Option Byte} {s t : State} (h : cycle r s = .next t) :
    FetchLegal s.pc ∧ ∃ w ins, s.fetchWord = some w ∧ decode w = some ins ∧ exec ins (s.beginCycle r) = .next t := by
  unfold cycle at h
  split at h
  · cases h
  · rename_i w hf
    split at h
    · cases h
    · rename_i ins hd
      refine ⟨?_, w, ins, hf, hd, h⟩
      by_contra hl
      rw [State.fetchWord_illegal hl] at hf
      cases hf

/-- Everything a failed cycle can be, in the order of spec/60_exceptions.md R126: the fetch range, the word, the handler. -/
theorem cycle_eq_fault {r : Option Byte} {s : State} {f : Fault} (h : cycle r s = .fault f) :
    (s.fetchWord = none ∧ f = .outOfBounds s.pc none) ∨
    (∃ w, s.fetchWord = some w ∧ decode w = none ∧ f = .unknownInstruction s.pc w) ∨
    (∃ w ins, s.fetchWord = some w ∧ decode w = some ins ∧ exec ins (s.beginCycle r) = .fault f) := by
  unfold cycle at h
  split at h
  · rename_i hf
    exact .inl ⟨hf, (Host.Outcome.fault.inj h).symm⟩
  · rename_i w hf
    split at h
    · rename_i hd
      exact .inr (.inl ⟨w, hf, hd, (Host.Outcome.fault.inj h).symm⟩)
    · rename_i ins hd
      exact .inr (.inr ⟨w, ins, hf, hd, h⟩)

/-- With nothing listed a step is a CYCLE with a free byte, its draw counted first (log entries 1 and 2). -/
theorem step_of_nil {s : State} (h : s.hostOps = []) : step s = cycle none s.nextDraw := by
  simp only [step, nextOperation, h]

/-- With an operation listed a step performs it (log entry 2). -/
theorem step_of_cons {s : State} {op : HostOp} {rest : List HostOp} (h : s.hostOps = op :: rest) :
    step s = perform op { s with hostOps := rest } := by
  simp only [step, nextOperation, h]

/-- A step is one operation (spec/60_exceptions.md R131): a CYCLE with a fresh draw, or the oldest listed one. -/
theorem step_eq_next {s t : State} (h : step s = .next t) :
    (s.hostOps = [] ∧ cycle none s.nextDraw = .next t) ∨
    (∃ op rest, s.hostOps = op :: rest ∧ perform op { s with hostOps := rest } = .next t) := by
  unfold step nextOperation at h
  split at h
  · rename_i hn
    exact .inl ⟨hn, h⟩
  · rename_i op rest hn
    exact .inr ⟨op, rest, hn, h⟩

/-- A timer after one TICK (R135). -/
theorem timerTick_toNat (b : Byte) : (timerTick b).toNat = b.toNat - 1 := by
  revert b; decide +revert

/-- Everything LOAD can do (R136). -/
theorem loadProgram_eq (bytes : List Byte) (s : State) :
    loadProgram bytes s =
      if bytes.length ≤ Config.maxRom then .next { s with mem := Memory.putBytes Config.progBase bytes s.mem }
      else .fault .romTooLarge := by
  unfold loadProgram
  split <;> split <;> first | rfl | omega

/-- The address an instruction is placed at is a legal fetch address. -/
theorem placeAddr_legal (p : Word) : FetchLegal (placeAddr p) := by
  unfold placeAddr
  split
  · assumption
  · decide

/-- The word placed for the next fetch is the word fetched, from every state. -/
theorem fetchWord_placeWord (s : State) (w : Word) : (s.placeWord w).fetchWord = some w := by
  rw [State.fetchWord_legal (s := s.placeWord w) (placeAddr_legal s.pc)]
  simp [State.placeWord, Memory.get_putBytes]

/-- `step` after `withFetchWord` runs exactly the placed word. -/
theorem step_withFetchWord (s : State) (nbits w : Nat) :
    step (s.withFetchWord nbits w) =
      cycle none (s.placeWord (tableWord nbits w)).nextDraw := rfl

end Sys2Proof.Machine
end

