-- ==== Sys2Proof/Laws/Draw.lean ====
section
/-! SUPPORT. The sprite loops of DXYN in closed form: what a run of columns and a run of rows give, and when they fail
(spec/44_display.md R113, R114). -/

namespace Sys2Proof.Machine

/-- `t` is `s` after toggling the pixels `hit`, with VF set to 1 if one of them was on. -/
structure Drawn (hit : Nat → Nat → Bool) (s t : State) : Prop where
  frame : t = { s with v := t.v, fb := t.fb }
  regs : ∀ r : Reg, r ≠ vf → t.reg r = s.reg r
  pixels : ∀ (py : Fin 32) (px : Fin 64), t.pixel py px = (s.pixel py px ^^ hit py.val px.val)
  met : (∃ (py : Fin 32) (px : Fin 64), hit py.val px.val = true ∧ s.pixel py px = true) → t.reg vf = 1
  missed : (¬ ∃ (py : Fin 32) (px : Fin 64), hit py.val px.val = true ∧ s.pixel py px = true) → t.reg vf = s.reg vf

/-- Toggling nothing changes nothing. -/
theorem Drawn.nothing (s : State) : Drawn (fun _ _ => false) s s :=
  ⟨rfl, fun _ _ => rfl, by simp, by simp, fun _ => rfl⟩

/-- The set of toggled pixels may be spelled differently. -/
theorem Drawn.congr {hit hit' : Nat → Nat → Bool} {s t : State} (h : Drawn hit s t)
    (he : ∀ y x, hit y x = hit' y x) : Drawn hit' s t := by
  have : hit = hit' := funext fun y => funext fun x => he y x
  exact this ▸ h

/-- Two draws of disjoint pixels are one draw of both: no pixel is visited twice (R113). -/
theorem Drawn.append {h1 h2 : Nat → Nat → Bool} {s t u : State} (a : Drawn h1 s t) (b : Drawn h2 t u)
    (hd : ∀ y x, h1 y x = true → h2 y x = false) : Drawn (fun y x => h1 y x || h2 y x) s u := by
  have hframe : u = { s with v := u.v, fb := u.fb } := by
    rw [b.frame, a.frame]
  have hsame : ∀ (py : Fin 32) (px : Fin 64), h2 py.val px.val = true → t.pixel py px = s.pixel py px := by
    intro py px h
    have : h1 py.val px.val = false := by
      cases h' : h1 py.val px.val with
      | false => rfl
      | true => rw [hd _ _ h'] at h; cases h
    simp [a.pixels, this]
  refine ⟨hframe, fun r hr => (b.regs r hr).trans (a.regs r hr), fun py px => ?_, fun hmet => ?_, fun hmiss => ?_⟩
  · rw [b.pixels, a.pixels]
    cases h1' : h1 py.val px.val with
    | false => simp
    | true => simp [hd _ _ h1']
  · obtain ⟨py, px, hh, hon⟩ := hmet
    by_cases h2met : ∃ (py : Fin 32) (px : Fin 64), h2 py.val px.val = true ∧ t.pixel py px = true
    · exact b.met h2met
    · rw [b.missed h2met]
      rcases Bool.or_eq_true _ _ |>.mp hh with h | h
      · exact a.met ⟨py, px, h, hon⟩
      · exact absurd ⟨py, px, h, (hsame py px h).trans hon⟩ h2met
  · have m1 : ¬ ∃ (py : Fin 32) (px : Fin 64), h1 py.val px.val = true ∧ s.pixel py px = true :=
      fun ⟨py, px, h, hon⟩ => hmiss ⟨py, px, by simp [h], hon⟩
    have m2 : ¬ ∃ (py : Fin 32) (px : Fin 64), h2 py.val px.val = true ∧ t.pixel py px = true :=
      fun ⟨py, px, h, hon⟩ => hmiss ⟨py, px, by simp [h], (hsame py px h).symm.trans hon⟩
    rw [b.missed m2, a.missed m1]

/-- A draw leaves memory and the addresses of a sprite's rows alone. -/
theorem Drawn.load {hit : Nat → Nat → Bool} {s t : State} (h : Drawn hit s t) (a : Nat) : t.load a = s.load a := by
  rw [h.frame]; rfl

theorem Drawn.effAddr {hit : Nat → Nat → Bool} {s t : State} (h : Drawn hit s t) (k : Nat) :
    t.effAddr k = s.effAddr k := by
  rw [h.frame]; rfl

theorem Drawn.mem {hit : Nat → Nat → Bool} {s t : State} (h : Drawn hit s t) : t.mem = s.mem := by
  rw [h.frame]

/-- One set sprite bit: it answers exactly on the screen, and toggles one pixel. -/
theorem drawPixel_drawn {x y : Nat} {s t : State} (h : drawPixel x y s = some t) :
    (x < 64 ∧ y < 32) ∧ Drawn (fun py px => py == y && px == x) s t := by
  unfold drawPixel at h
  by_cases hb : x < 64 ∧ y < 32
  · rw [dif_pos hb, Option.some.injEq] at h
    have hpix : ∀ (py : Fin 32) (px : Fin 64), (py.val == y && px.val == x) = true ↔ py = ⟨y, hb.2⟩ ∧ px = ⟨x, hb.1⟩ := by
      intro py px; simp [Fin.ext_iff]
    refine ⟨hb, ?_⟩
    cases hon : s.pixel ⟨y, hb.2⟩ ⟨x, hb.1⟩ with
    | false =>
      simp only [hon, Bool.false_eq_true, if_false, Bool.not_false] at h
      subst h
      refine ⟨rfl, fun _ _ => rfl, fun py px => ?_, fun ⟨py, px, hh, ho⟩ => ?_, fun _ => rfl⟩
      · rw [State.pixel_setPixel]
        by_cases he : py = ⟨y, hb.2⟩ ∧ px = ⟨x, hb.1⟩
        · rw [if_pos he, (hpix py px).2 he, he.1, he.2, hon]; rfl
        · rw [if_neg he, Bool.eq_false_iff.2 (fun hc => he ((hpix py px).1 hc))]; simp
      · obtain ⟨rfl, rfl⟩ := (hpix py px).1 hh
        rw [hon] at ho; cases ho
    | true =>
      simp only [hon, if_true, Bool.not_true] at h
      subst h
      refine ⟨rfl, fun r hr => ?_, fun py px => ?_, fun _ => ?_, fun hmiss => ?_⟩
      · rw [State.reg_setPixel, State.reg_setReg_ne _ _ hr]
      · rw [State.pixel_setPixel]
        by_cases he : py = ⟨y, hb.2⟩ ∧ px = ⟨x, hb.1⟩
        · rw [if_pos he, (hpix py px).2 he, he.1, he.2, hon]; rfl
        · rw [if_neg he, Bool.eq_false_iff.2 (fun hc => he ((hpix py px).1 hc))]; simp
      · rw [State.reg_setPixel, State.reg_setReg_self]
      · exact absurd ⟨_, _, (hpix _ _).2 ⟨rfl, rfl⟩, hon⟩ hmiss
  · rw [dif_neg hb] at h; cases h

theorem drawPixel_eq_none {x y : Nat} {s : State} : drawPixel x y s = none ↔ ¬ (x < 64 ∧ y < 32) := by
  unfold drawPixel
  split <;> simp_all

/-- The pixels one row's columns toggle: column `col` on pixel `x + col` where the byte's bit is set. -/
def columnHits (row : Byte) (x : Nat) (cols : List Nat) (px : Nat) : Bool :=
  cols.any fun col => row.getLsbD (7 - col) && px == x + col

theorem columnHits_eq_true {row : Byte} {x px : Nat} {cols : List Nat} :
    columnHits row x cols px = true ↔ ∃ col ∈ cols, row.getLsbD (7 - col) = true ∧ px = x + col := by
  simp [columnHits]

/-- Everything a run of columns can do: it answers exactly when every set bit falls on the screen, and then toggles those
pixels of its row. -/
theorem drawColumns_spec (row : Byte) (x y : Nat) (cols : List Nat) (s : State) (hnd : cols.Nodup) :
    (∀ t, drawColumns row x y cols s = some t →
      (∀ col ∈ cols, row.getLsbD (7 - col) = true → x + col < 64 ∧ y < 32) ∧
        Drawn (fun py px => py == y && columnHits row x cols px) s t) ∧
    (drawColumns row x y cols s = none →
      ∃ col ∈ cols, row.getLsbD (7 - col) = true ∧ ¬ (x + col < 64 ∧ y < 32)) := by
  induction cols generalizing s with
  | nil =>
    simp only [drawColumns, Option.some.injEq, forall_eq', reduceCtorEq, false_implies, and_true]
    exact ⟨by simp, (Drawn.nothing s).congr (by simp [columnHits])⟩
  | cons c rest ih =>
    obtain ⟨hc, hrest⟩ := List.nodup_cons.1 hnd
    rw [drawColumns]
    cases hbit : row.getLsbD (7 - c) with
    | false =>
      obtain ⟨ih1, ih2⟩ := ih s hrest
      simp only [Bool.false_eq_true, if_false]
      constructor
      · intro t ht
        obtain ⟨hs, hd⟩ := ih1 t ht
        refine ⟨fun col hcol hb => ?_, hd.congr fun py px => by simp [columnHits, hbit]⟩
        rcases List.mem_cons.1 hcol with rfl | hcol
        · rw [hbit] at hb; cases hb
        · exact hs col hcol hb
      · intro hn
        obtain ⟨col, hcol, h⟩ := ih2 hn
        exact ⟨col, List.mem_cons_of_mem _ hcol, h⟩
    | true =>
      simp only [if_true]
      cases hp : drawPixel (x + c) y s with
      | none =>
        exact ⟨by simp, fun _ => ⟨c, List.mem_cons_self, hbit, drawPixel_eq_none.1 hp⟩⟩
      | some u =>
        obtain ⟨hon, hdrawn⟩ := drawPixel_drawn hp
        obtain ⟨ih1, ih2⟩ := ih u hrest
        rw [Option.bind_some]
        constructor
        · intro t ht
          obtain ⟨hs, hd⟩ := ih1 t ht
          refine ⟨fun col hcol hb => ?_, (hdrawn.append hd ?_).congr fun py px => ?_⟩
          · rcases List.mem_cons.1 hcol with rfl | hcol
            · exact hon
            · exact hs col hcol hb
          · intro py px h
            simp only [Bool.and_eq_true, beq_iff_eq] at h
            rw [Bool.and_eq_false_iff]
            right
            rw [Bool.eq_false_iff]
            intro hh
            obtain ⟨col, hcol, -, hx⟩ := columnHits_eq_true.1 hh
            have : col = c := by omega
            exact hc (this ▸ hcol)
          · simp [columnHits, hbit, Bool.and_or_distrib_left]
        · intro hn
          obtain ⟨col, hcol, h⟩ := ih2 hn
          exact ⟨col, List.mem_cons_of_mem _ hcol, h⟩

/-- The pixels a run of rows toggles, the bytes read as they are in `s`. -/
def rowHits (s : State) (x y : Nat) (rows : List Nat) (py px : Nat) : Bool :=
  rows.any fun row => py == y + row && columnHits (s.mem.get (s.effAddr row)) x (List.range 8) px

theorem rowHits_eq_true {s : State} {x y py px : Nat} {rows : List Nat} :
    rowHits s x y rows py px = true ↔
      ∃ row ∈ rows, py = y + row ∧ columnHits (s.mem.get (s.effAddr row)) x (List.range 8) px = true := by
  simp [rowHits]

/-- The hits of a run of rows depend on memory and I alone. -/
theorem rowHits_congr {s t : State} (hm : t.mem = s.mem) (he : ∀ k, t.effAddr k = s.effAddr k) (x y : Nat)
    (rows : List Nat) : rowHits t x y rows = rowHits s x y rows := by
  funext py px
  simp [rowHits, hm, he]

/-- A run of rows does not fail: every row address is a cell and every set bit falls on the screen. -/
def RowsLegal (s : State) (x y : Nat) (rows : List Nat) : Prop :=
  ∀ row ∈ rows, s.effAddr row < Config.memSize ∧
    ∀ col < 8, (s.mem.get (s.effAddr row)).getLsbD (7 - col) = true → x + col < 64 ∧ y + row < 32

theorem RowsLegal.congr {s t : State} (hm : t.mem = s.mem) (he : ∀ k, t.effAddr k = s.effAddr k) {x y : Nat}
    {rows : List Nat} : RowsLegal t x y rows ↔ RowsLegal s x y rows := by
  simp [RowsLegal, hm, he]

/-- Everything a run of rows can do: it answers exactly when it is legal, and then toggles the sprite's pixels. -/
theorem drawRows_spec (x y : Nat) (rows : List Nat) (s : State) (hnd : rows.Nodup) :
    (∀ t, drawRows x y rows s = some t → RowsLegal s x y rows ∧ Drawn (rowHits s x y rows) s t) ∧
    (drawRows x y rows s = none → ¬ RowsLegal s x y rows) := by
  induction rows generalizing s with
  | nil =>
    simp only [drawRows, Option.some.injEq, forall_eq', reduceCtorEq, false_implies, and_true]
    exact ⟨by simp [RowsLegal], (Drawn.nothing s).congr (by simp [rowHits])⟩
  | cons row rest ih =>
    obtain ⟨hrow, hrest⟩ := List.nodup_cons.1 hnd
    rw [drawRows]
    by_cases ha : s.effAddr row < Config.memSize
    · rw [State.load_some ha, Option.bind_some]
      obtain ⟨c1, c2⟩ := drawColumns_spec (s.mem.get (s.effAddr row)) x (y + row) (List.range 8) s List.nodup_range
      cases hcols : drawColumns (s.mem.get (s.effAddr row)) x (y + row) (List.range 8) s with
      | none =>
        refine ⟨by simp, fun _ hl => ?_⟩
        obtain ⟨col, hcol, hbit, hoff⟩ := c2 hcols
        exact hoff ((hl row List.mem_cons_self).2 col (List.mem_range.1 hcol) hbit)
      | some u =>
        obtain ⟨hon, hdrawn⟩ := c1 u hcols
        obtain ⟨ih1, ih2⟩ := ih u hrest
        have hlegal : RowsLegal u x y rest ↔ RowsLegal s x y rest := RowsLegal.congr hdrawn.mem hdrawn.effAddr
        rw [Option.bind_some]
        constructor
        · intro t ht
          obtain ⟨hl, hd⟩ := ih1 t ht
          rw [rowHits_congr hdrawn.mem hdrawn.effAddr] at hd
          refine ⟨fun r hr => ?_, (hdrawn.append hd ?_).congr fun py px => ?_⟩
          · rcases List.mem_cons.1 hr with rfl | hr
            · exact ⟨ha, fun col hcol => hon col (List.mem_range.2 hcol)⟩
            · exact hlegal.1 hl r hr
          · intro py px h
            simp only [Bool.and_eq_true, beq_iff_eq] at h
            rw [Bool.eq_false_iff]
            intro hh
            obtain ⟨r, hr, hy, -⟩ := rowHits_eq_true.1 hh
            have : r = row := by omega
            exact hrow (this ▸ hr)
          · simp [rowHits]
        · intro hn hl
          exact ih2 hn (hlegal.2 fun r hr => hl r (List.mem_cons_of_mem _ hr))
    · have hl : s.load (s.effAddr row) = none := by simp [State.load_eq, ha]
      rw [hl, Option.bind_none]
      exact ⟨by simp, fun _ hl => ha (hl row List.mem_cons_self).1⟩

/-- Everything DXYN's loops can do from an origin: they answer exactly when the rows are legal, and then VF is cleared and the
sprite's pixels are toggled. -/
theorem drawSprite_spec (x y n : Nat) (s : State) :
    (∀ t, drawSprite x y n s = some t →
      RowsLegal s x y (List.range n) ∧ Drawn (rowHits s x y (List.range n)) (s.setReg vf 0) t) ∧
    (drawSprite x y n s = none → ¬ RowsLegal s x y (List.range n)) := by
  have he : ∀ k, (s.setReg vf 0).effAddr k = s.effAddr k := fun _ => rfl
  obtain ⟨h1, h2⟩ := drawRows_spec x y (List.range n) (s.setReg vf 0) List.nodup_range
  rw [RowsLegal.congr (s := s) (t := s.setReg vf 0) rfl he] at h2
  refine ⟨fun t ht => ?_, h2⟩
  obtain ⟨hl, hd⟩ := h1 t ht
  rw [RowsLegal.congr (s := s) (t := s.setReg vf 0) rfl he] at hl
  rw [rowHits_congr (s := s) (t := s.setReg vf 0) rfl he] at hd
  exact ⟨hl, hd⟩

end Sys2Proof.Machine
end

