-- ==== Sys2Proof/Laws/Frame.lean ====
section
/-! SUPPORT. What a one-field update leaves alone, in the terms of `SameOutside`; what the block transfers and the two stack
instructions can do; and the sprite of DXYN in the terms of the statements. -/

namespace Sys2Proof.Machine

/-! ### One-field updates -/

theorem sameOutside_refl (parts : List Part) (s : State) : SameOutside parts s s := by simp [SameOutside]

theorem sameOutside_v (s : State) (v : Vector Byte 16) : SameOutside [.regs] s { s with v := v } := by
  simp [SameOutside, State.pixel, State.load]

theorem sameOutside_pc (s : State) (p : Word) : SameOutside [.pc] s { s with pc := p } := by
  simp [SameOutside, State.pixel, State.load, State.reg]

theorem sameOutside_index (s : State) (i : Word) : SameOutside [.index] s { s with index := i } := by
  simp [SameOutside, State.pixel, State.load, State.reg]

theorem sameOutside_dt (s : State) (b : Byte) : SameOutside [.dt] s { s with dt := b } := by
  simp [SameOutside, State.pixel, State.load, State.reg]

theorem sameOutside_st (s : State) (b : Byte) : SameOutside [.st] s { s with st := b } := by
  simp [SameOutside, State.pixel, State.load, State.reg]

theorem sameOutside_timers (s : State) (b c : Byte) : SameOutside [.dt, .st] s { s with dt := b, st := c } := by
  simp [SameOutside, State.pixel, State.load, State.reg]

theorem sameOutside_fb (s : State) (fb : Vector PixelRow 32) : SameOutside [.fb] s { s with fb := fb } := by
  simp [SameOutside, State.load, State.reg]

theorem sameOutside_mem (s : State) (m : Memory) : SameOutside [.mem] s { s with mem := m } := by
  simp [SameOutside, State.pixel, State.reg]

theorem sameOutside_vfb (s : State) (v : Vector Byte 16) (fb : Vector PixelRow 32) :
    SameOutside [.regs, .fb] s { s with v := v, fb := fb } := by
  simp [SameOutside, State.load]

theorem sameOutside_pcSp (s : State) (p : Word) (sp : Byte) : SameOutside [.pc, .sp] s { s with pc := p, sp := sp } := by
  simp [SameOutside, State.pixel, State.load, State.reg]

theorem sameOutside_pcSpStack (s : State) (p : Word) (sp : Byte) (stack : Vector Word 16) :
    SameOutside [.pc, .sp, .stack] s { s with pc := p, sp := sp, stack := stack } := by
  simp [SameOutside, State.pixel, State.load, State.reg]

/-- More parts may be named. -/
theorem SameOutside.mono {ps qs : List Part} {s t : State} (h : SameOutside ps s t) (hsub : ∀ p ∈ ps, p ∈ qs) :
    SameOutside qs s t := by
  obtain ⟨h1, h2, h3, h4, h5, h6, h7, h8, h9, hrest⟩ := h
  exact ⟨fun hp => h1 (mt (hsub _) hp), fun hp => h2 (mt (hsub _) hp), fun hp => h3 (mt (hsub _) hp),
    fun hp => h4 (mt (hsub _) hp), fun hp => h5 (mt (hsub _) hp), fun hp => h6 (mt (hsub _) hp),
    fun hp => h7 (mt (hsub _) hp), fun hp => h8 (mt (hsub _) hp), fun hp => h9 (mt (hsub _) hp), hrest⟩

/-! ### The stack instructions -/

/-- Everything 00EE can do when it completes (spec/41_flow.md R79). -/
theorem execRet_eq_next {s t : State} :
    execRet s = .next t ↔ s.sp ≠ 0 ∧ ∃ h : (s.sp - 1).toNat < Config.stackDepth,
      t = { s with pc := s.stack[(s.sp - 1).toNat]'h, sp := s.sp - 1 } := by
  unfold execRet
  split
  · rename_i h0; simp [h0, fail]
  · rename_i h0
    simp only [orOutOfBounds_eq_next, Option.map_eq_some_iff, Prod.exists, State.pop_eq_some]
    constructor
    · rintro ⟨a, u, ⟨h, rfl, rfl⟩, rfl⟩; exact ⟨h0, h, rfl⟩
    · rintro ⟨-, h, rfl⟩; exact ⟨_, _, ⟨h, rfl, rfl⟩, rfl⟩

/-- Everything 2NNN can do when it completes (R81). -/
theorem execCall_eq_next {nnn : Addr} {s t : State} :
    execCall nnn s = .next t ↔ ∃ h : s.sp.toNat < Config.stackDepth,
      t = { s with pc := zext16 nnn, stack := s.stack.set s.sp.toNat s.pc h, sp := s.sp + 1 } := by
  unfold execCall
  split
  · rename_i h0; simp [h0, fail, Config.stackDepth]
  · simp only [orOutOfBounds_eq_next, Option.map_eq_some_iff, State.push_eq_some]
    constructor
    · rintro ⟨u, ⟨h, rfl⟩, rfl⟩; exact ⟨h, rfl⟩
    · rintro ⟨h, rfl⟩; exact ⟨_, ⟨h, rfl⟩, rfl⟩

/-! ### Block transfers -/

/-- Everything a run of stores can do (spec/20_memory.md R41). -/
theorem storeFrom_eq_some {bytes : List Byte} {k : Nat} {s t : State} :
    storeFrom k bytes s = some t ↔ (bytes = [] ∨ s.effAddr k + bytes.length ≤ Config.memSize) ∧
      t = { s with mem := Memory.putBytes (s.effAddr k) bytes s.mem } := by
  rw [storeFrom_eq]
  split <;> simp_all [eq_comm]

/-- What an address reads after a run of bytes was copied in from address `a` on. -/
theorem State.load_putBytes (s : State) (bytes : List Byte) (a a' : Nat) :
    ({ s with mem := Memory.putBytes a bytes s.mem } : State).load a' =
      if a ≤ a' ∧ a' < a + bytes.length ∧ a' < Config.memSize then bytes[a' - a]? else s.load a' := by
  simp only [State.load_eq, Memory.get_putBytes]
  by_cases h1 : a' < Config.memSize <;> by_cases h2 : a ≤ a' <;> by_cases h3 : a' < a + bytes.length <;>
    simp [h1, h2, h3]
  · have : a' - a < bytes.length := by omega
    simp [this]
  · have : bytes.length ≤ a' - a := by omega
    simp [List.getElem?_eq_none this]

theorem regsUpTo_ne_nil (x : Reg) : regsUpTo x ≠ [] := by
  revert x; decide

/-! ### The sprite -/

/-- A draw is legal exactly when its rows are. -/
theorem drawLegal_iff {s : State} {vx vy : Byte} {n : Nibble} :
    DrawLegal s vx vy n ↔ RowsLegal s (originColumn vx) (originRow vy) (List.range n.toNat) := by
  unfold DrawLegal RowsLegal spriteBit Config.memSize
  simp only [List.mem_range]
  exact ⟨fun h row hr => ⟨by have := (h row hr).1; omega, fun col hc hb => by have := (h row hr).2 col hc hb; omega⟩,
    fun h row hr => ⟨by have := (h row hr).1; omega, fun col hc hb => by have := (h row hr).2 col hc hb; omega⟩⟩

/-- The pixels the loops toggle are those of the closed form (spec/44_display.md R114). -/
theorem rowHits_eq_spriteCovers (s : State) (vx vy : Byte) (n : Nibble) (py px : Nat) :
    rowHits s (originColumn vx) (originRow vy) (List.range n.toNat) py px = spriteCovers s vx vy n py px := by
  rw [Bool.eq_iff_iff, rowHits_eq_true]
  simp only [columnHits_eq_true, List.mem_range, spriteCovers, Bool.and_eq_true, decide_eq_true_eq, spriteBit]
  constructor
  · rintro ⟨row, hr, rfl, col, hcol, hb, rfl⟩
    refine ⟨by omega, ?_⟩
    rwa [Nat.add_sub_cancel_left, Nat.add_sub_cancel_left]
  · rintro ⟨h, hb⟩
    exact ⟨_, by omega, by omega, _, by omega, hb, by omega⟩

/-- Everything DXYN can do when it completes, in the closed form's terms. -/
theorem execDrw_eq_next {x y : Reg} {n : Nibble} {s t : State} (h : execDrw x y n s = .next t) :
    DrawLegal s (s.reg x) (s.reg y) n ∧ Drawn (spriteCovers s (s.reg x) (s.reg y) n) (s.setReg vf 0) t := by
  obtain ⟨hl, hd⟩ := (drawSprite_spec _ _ _ s).1 t (orOutOfBounds_eq_next.1 h)
  exact ⟨drawLegal_iff.2 hl, hd.congr (rowHits_eq_spriteCovers s (s.reg x) (s.reg y) n)⟩

/-- DXYN completes exactly when the draw is legal. -/
theorem execDrw_completes {x y : Reg} {n : Nibble} {s : State} (h : DrawLegal s (s.reg x) (s.reg y) n) :
    ∃ t, execDrw x y n s = .next t := by
  cases hd : drawSprite (originColumn (s.reg x)) (originRow (s.reg y)) n.toNat s with
  | some t => exact ⟨t, orOutOfBounds_eq_next.2 hd⟩
  | none => exact absurd (drawLegal_iff.1 h) ((drawSprite_spec _ _ _ s).2 hd)

end Sys2Proof.Machine
end

