-- ==== Sys2Proof/Laws/PerInstr.lean ====
section
/-! SUPPORT. The statements about every instruction as syntax, one lemma per constructor. `RowMatch`: an instruction's word
matches the row of spec/opcode_table.json whose mnemonic it carries. -/

namespace Sys2Proof

theorem formatNNN_and_F000 (op : BitVec 4) (nnn : Addr) : formatNNN op nnn &&& 0xF000 = op ++ (0 : BitVec 12) := by
  have hm : (0xF000 : Word) = (BitVec.allOnes 4 ++ (0 : BitVec 12) : BitVec 16) := by decide
  rw [hm, formatNNN, BitVec.and_append]; simp only [BitVec.and_allOnes]; simp

theorem formatXKK_and_F000 (op : BitVec 4) (x : Reg) (kk : Byte) :
    formatXKK op x kk &&& 0xF000 = op ++ (0 : BitVec 4) ++ (0 : BitVec 8) := by
  have hm : (0xF000 : Word) = (BitVec.allOnes 4 ++ (0 : BitVec 4) ++ (0 : BitVec 8) : BitVec 16) := by decide
  rw [hm, formatXKK, BitVec.and_append, BitVec.and_append]; simp only [BitVec.and_allOnes]; simp

theorem formatXKK_and_F0FF (op : BitVec 4) (x : Reg) (kk : Byte) :
    formatXKK op x kk &&& 0xF0FF = op ++ (0 : BitVec 4) ++ kk := by
  have hm : (0xF0FF : Word) = (BitVec.allOnes 4 ++ (0 : BitVec 4) ++ BitVec.allOnes 8 : BitVec 16) := by decide
  rw [hm, formatXKK, BitVec.and_append, BitVec.and_append]; simp only [BitVec.and_allOnes]; simp

theorem formatXYN_and_F000 (op : BitVec 4) (x y : Reg) (n : BitVec 4) :
    formatXYN op x y n &&& 0xF000 = op ++ (0 : BitVec 4) ++ (0 : BitVec 4) ++ (0 : BitVec 4) := by
  have hm : (0xF000 : Word) = (BitVec.allOnes 4 ++ (0 : BitVec 4) ++ (0 : BitVec 4) ++ (0 : BitVec 4) : BitVec 16) := by
    decide
  rw [hm, formatXYN, BitVec.and_append, BitVec.and_append, BitVec.and_append]; simp only [BitVec.and_allOnes]; simp

theorem formatXYN_and_F00F (op : BitVec 4) (x y : Reg) (n : BitVec 4) :
    formatXYN op x y n &&& 0xF00F = op ++ (0 : BitVec 4) ++ (0 : BitVec 4) ++ n := by
  have hm : (0xF00F : Word) = (BitVec.allOnes 4 ++ (0 : BitVec 4) ++ (0 : BitVec 4) ++ BitVec.allOnes 4 : BitVec 16) := by
    decide
  rw [hm, formatXYN, BitVec.and_append, BitVec.and_append, BitVec.and_append]; simp only [BitVec.and_allOnes]; simp

/-- A row of the table carries the instruction's mnemonic, and the instruction's word matches it. -/
def Laws.RowMatch.Statement (ins : Instr) : Prop :=
  ∃ row ∈ opcodeTable, row.mnemonic = ins.mnemonic ∧ row.matchesWord (encode ins) = true

/-- A row of the table whose mask leaves the pattern. -/
theorem rowMatch_of {ins : Instr} (row : OpcodeRow) (hrow : row ∈ opcodeTable) (hm : row.mnemonic = ins.mnemonic)
    (hw : encode ins &&& row.mask = row.pattern) : Laws.RowMatch.Statement ins :=
  ⟨row, hrow, hm, by simp [OpcodeRow.matchesWord, hw]⟩

theorem Laws.RowMatch.cls : Laws.RowMatch.Statement .cls :=
  rowMatch_of ⟨"00E0", 0x00E0, 0xFFFF⟩ (by decide) rfl rfl

theorem Laws.RowMatch.ret : Laws.RowMatch.Statement .ret :=
  rowMatch_of ⟨"00EE", 0x00EE, 0xFFFF⟩ (by decide) rfl rfl

theorem Laws.RowMatch.jp (nnn : Addr) : Laws.RowMatch.Statement (.jp nnn) :=
  rowMatch_of ⟨"1NNN", 0x1000, 0xF000⟩ (by decide) rfl ((formatNNN_and_F000 _ _).trans (by decide))

theorem Laws.RowMatch.call (nnn : Addr) : Laws.RowMatch.Statement (.call nnn) :=
  rowMatch_of ⟨"2NNN", 0x2000, 0xF000⟩ (by decide) rfl ((formatNNN_and_F000 _ _).trans (by decide))

theorem Laws.RowMatch.seByte (x : Reg) (kk : Byte) : Laws.RowMatch.Statement (.seByte x kk) :=
  rowMatch_of ⟨"3XKK", 0x3000, 0xF000⟩ (by decide) rfl ((formatXKK_and_F000 _ _ _).trans (by decide))

theorem Laws.RowMatch.sneByte (x : Reg) (kk : Byte) : Laws.RowMatch.Statement (.sneByte x kk) :=
  rowMatch_of ⟨"4XKK", 0x4000, 0xF000⟩ (by decide) rfl ((formatXKK_and_F000 _ _ _).trans (by decide))

theorem Laws.RowMatch.seReg (x y : Reg) : Laws.RowMatch.Statement (.seReg x y) :=
  rowMatch_of ⟨"5XY0", 0x5000, 0xF00F⟩ (by decide) rfl ((formatXYN_and_F00F _ _ _ _).trans (by decide))

theorem Laws.RowMatch.ldByte (x : Reg) (kk : Byte) : Laws.RowMatch.Statement (.ldByte x kk) :=
  rowMatch_of ⟨"6XKK", 0x6000, 0xF000⟩ (by decide) rfl ((formatXKK_and_F000 _ _ _).trans (by decide))

theorem Laws.RowMatch.addByte (x : Reg) (kk : Byte) : Laws.RowMatch.Statement (.addByte x kk) :=
  rowMatch_of ⟨"7XKK", 0x7000, 0xF000⟩ (by decide) rfl ((formatXKK_and_F000 _ _ _).trans (by decide))

theorem Laws.RowMatch.ldReg (x y : Reg) : Laws.RowMatch.Statement (.ldReg x y) :=
  rowMatch_of ⟨"8XY0", 0x8000, 0xF00F⟩ (by decide) rfl ((formatXYN_and_F00F _ _ _ _).trans (by decide))

theorem Laws.RowMatch.orReg (x y : Reg) : Laws.RowMatch.Statement (.orReg x y) :=
  rowMatch_of ⟨"8XY1", 0x8001, 0xF00F⟩ (by decide) rfl ((formatXYN_and_F00F _ _ _ _).trans (by decide))

theorem Laws.RowMatch.andReg (x y : Reg) : Laws.RowMatch.Statement (.andReg x y) :=
  rowMatch_of ⟨"8XY2", 0x8002, 0xF00F⟩ (by decide) rfl ((formatXYN_and_F00F _ _ _ _).trans (by decide))

theorem Laws.RowMatch.xorReg (x y : Reg) : Laws.RowMatch.Statement (.xorReg x y) :=
  rowMatch_of ⟨"8XY3", 0x8003, 0xF00F⟩ (by decide) rfl ((formatXYN_and_F00F _ _ _ _).trans (by decide))

theorem Laws.RowMatch.addReg (x y : Reg) : Laws.RowMatch.Statement (.addReg x y) :=
  rowMatch_of ⟨"8XY4", 0x8004, 0xF00F⟩ (by decide) rfl ((formatXYN_and_F00F _ _ _ _).trans (by decide))

theorem Laws.RowMatch.subReg (x y : Reg) : Laws.RowMatch.Statement (.subReg x y) :=
  rowMatch_of ⟨"8XY5", 0x8005, 0xF00F⟩ (by decide) rfl ((formatXYN_and_F00F _ _ _ _).trans (by decide))

theorem Laws.RowMatch.shrReg (x y : Reg) : Laws.RowMatch.Statement (.shrReg x y) :=
  rowMatch_of ⟨"8XY6", 0x8006, 0xF00F⟩ (by decide) rfl ((formatXYN_and_F00F _ _ _ _).trans (by decide))

theorem Laws.RowMatch.subnReg (x y : Reg) : Laws.RowMatch.Statement (.subnReg x y) :=
  rowMatch_of ⟨"8XY7", 0x8007, 0xF00F⟩ (by decide) rfl ((formatXYN_and_F00F _ _ _ _).trans (by decide))

theorem Laws.RowMatch.shlReg (x y : Reg) : Laws.RowMatch.Statement (.shlReg x y) :=
  rowMatch_of ⟨"8XYE", 0x800E, 0xF00F⟩ (by decide) rfl ((formatXYN_and_F00F _ _ _ _).trans (by decide))

theorem Laws.RowMatch.sneReg (x y : Reg) : Laws.RowMatch.Statement (.sneReg x y) :=
  rowMatch_of ⟨"9XY0", 0x9000, 0xF00F⟩ (by decide) rfl ((formatXYN_and_F00F _ _ _ _).trans (by decide))

theorem Laws.RowMatch.ldI (nnn : Addr) : Laws.RowMatch.Statement (.ldI nnn) :=
  rowMatch_of ⟨"ANNN", 0xA000, 0xF000⟩ (by decide) rfl ((formatNNN_and_F000 _ _).trans (by decide))

theorem Laws.RowMatch.jpV0 (nnn : Addr) : Laws.RowMatch.Statement (.jpV0 nnn) :=
  rowMatch_of ⟨"BNNN", 0xB000, 0xF000⟩ (by decide) rfl ((formatNNN_and_F000 _ _).trans (by decide))

theorem Laws.RowMatch.rnd (x : Reg) (kk : Byte) : Laws.RowMatch.Statement (.rnd x kk) :=
  rowMatch_of ⟨"CXKK", 0xC000, 0xF000⟩ (by decide) rfl ((formatXKK_and_F000 _ _ _).trans (by decide))

theorem Laws.RowMatch.drw (x y : Reg) (n : Nibble) : Laws.RowMatch.Statement (.drw x y n) :=
  rowMatch_of ⟨"DXYN", 0xD000, 0xF000⟩ (by decide) rfl ((formatXYN_and_F000 _ _ _ _).trans (by decide))

theorem Laws.RowMatch.skp (x : Reg) : Laws.RowMatch.Statement (.skp x) :=
  rowMatch_of ⟨"EX9E", 0xE09E, 0xF0FF⟩ (by decide) rfl ((formatXKK_and_F0FF _ _ _).trans (by decide))

theorem Laws.RowMatch.sknp (x : Reg) : Laws.RowMatch.Statement (.sknp x) :=
  rowMatch_of ⟨"EXA1", 0xE0A1, 0xF0FF⟩ (by decide) rfl ((formatXKK_and_F0FF _ _ _).trans (by decide))

theorem Laws.RowMatch.ldVxDt (x : Reg) : Laws.RowMatch.Statement (.ldVxDt x) :=
  rowMatch_of ⟨"FX07", 0xF007, 0xF0FF⟩ (by decide) rfl ((formatXKK_and_F0FF _ _ _).trans (by decide))

theorem Laws.RowMatch.ldVxK (x : Reg) : Laws.RowMatch.Statement (.ldVxK x) :=
  rowMatch_of ⟨"FX0A", 0xF00A, 0xF0FF⟩ (by decide) rfl ((formatXKK_and_F0FF _ _ _).trans (by decide))

theorem Laws.RowMatch.ldDtVx (x : Reg) : Laws.RowMatch.Statement (.ldDtVx x) :=
  rowMatch_of ⟨"FX15", 0xF015, 0xF0FF⟩ (by decide) rfl ((formatXKK_and_F0FF _ _ _).trans (by decide))

theorem Laws.RowMatch.ldStVx (x : Reg) : Laws.RowMatch.Statement (.ldStVx x) :=
  rowMatch_of ⟨"FX18", 0xF018, 0xF0FF⟩ (by decide) rfl ((formatXKK_and_F0FF _ _ _).trans (by decide))

theorem Laws.RowMatch.addIVx (x : Reg) : Laws.RowMatch.Statement (.addIVx x) :=
  rowMatch_of ⟨"FX1E", 0xF01E, 0xF0FF⟩ (by decide) rfl ((formatXKK_and_F0FF _ _ _).trans (by decide))

theorem Laws.RowMatch.ldFVx (x : Reg) : Laws.RowMatch.Statement (.ldFVx x) :=
  rowMatch_of ⟨"FX29", 0xF029, 0xF0FF⟩ (by decide) rfl ((formatXKK_and_F0FF _ _ _).trans (by decide))

theorem Laws.RowMatch.ldBVx (x : Reg) : Laws.RowMatch.Statement (.ldBVx x) :=
  rowMatch_of ⟨"FX33", 0xF033, 0xF0FF⟩ (by decide) rfl ((formatXKK_and_F0FF _ _ _).trans (by decide))

theorem Laws.RowMatch.ldMemVx (x : Reg) : Laws.RowMatch.Statement (.ldMemVx x) :=
  rowMatch_of ⟨"FX55", 0xF055, 0xF0FF⟩ (by decide) rfl ((formatXKK_and_F0FF _ _ _).trans (by decide))

theorem Laws.RowMatch.ldVxMem (x : Reg) : Laws.RowMatch.Statement (.ldVxMem x) :=
  rowMatch_of ⟨"FX65", 0xF065, 0xF0FF⟩ (by decide) rfl ((formatXKK_and_F0FF _ _ _).trans (by decide))

end Sys2Proof
end

