-- ==== Sys2Proof/Tests/Slice0.lean ====
section
/-! SUPPORT. Tests. Expected results come from the encodings of spec/30_encoding.md and the vectors of
spec/95_test_vectors.md, each named by its label there (A11, F5, ...). A theorem `test_witness_<Name>` shows that the
hypotheses of `Obligations.<Name>` can be met together, at the boundary values of each clause. -/

namespace Sys2Proof.Tests

open Sys2Proof Sys2Proof.Machine

/-! ### Helpers -/

/-- The outcome is a next state of which `p` holds. -/
def ends (r : Result) (p : State → Bool) : Bool :=
  match r with
  | .next t => p t
  | _ => false

/-- The outcome is the fault `f`. -/
def faults (r : Result) (f : Fault) : Bool :=
  match r with
  | .fault g => g == f
  | _ => false

/-- The reset state with some general registers set. -/
def start (regs : List (Reg × Byte)) : State := regs.foldl (fun s rb => s.setReg rb.1 rb.2) State.reset

/-- The same state with bytes in memory from an address on. -/
def withBytes (a : Nat) (bytes : List Byte) (s : State) : State := { s with mem := Memory.putBytes a bytes s.mem }

/-- One CYCLE with `rnd = 0` of the word placed at pc: the convention of spec/95_test_vectors.md. -/
def run (w : Word) (s : State) : Result := cycle (some 0) (s.placeWord w)

/-- The same state with key `k` pressed. -/
def pressed (k : Key) (s : State) : State := s.setKey k true

/-! ### WellFormed -/

/-- One ill-formed word for each family with a literal digit or an incomplete sub-dispatch (R60, R61), all refused. -/
theorem test_wordWellFormed_refuses :
    wordWellFormed 0x0000 = false ∧ wordWellFormed 0x00E1 = false ∧ wordWellFormed 0x01E0 = false ∧
    wordWellFormed 0x5121 = false ∧ wordWellFormed 0x8128 = false ∧ wordWellFormed 0x812F = false ∧
    wordWellFormed 0x912F = false ∧ wordWellFormed 0xE19F = false ∧ wordWellFormed 0xF166 = false := by decide

theorem test_wordWellFormed_accepts :
    wordWellFormed 0x00E0 = true ∧ wordWellFormed 0x5120 = true ∧ wordWellFormed 0x812E = true ∧
    wordWellFormed 0xD010 = true ∧ wordWellFormed 0xFF65 = true := by decide

/-- 3585 bytes are refused, 3584 accepted (H4, H5). -/
theorem test_programWellFormed :
    programWellFormed (List.replicate 3585 0x01) = false ∧ programWellFormed (List.replicate 3584 0x01) = true := by
  rw [programWellFormed, programWellFormed, List.length_replicate, List.length_replicate]
  decide

/-- No word matches two rows: any two rows differ in a bit that both name. -/
theorem test_opcodeTable_disjoint :
    opcodeTable.Pairwise fun a b => (a.pattern ^^^ b.pattern) &&& a.mask &&& b.mask ≠ 0 := by decide

/-! ### Decode: words written out bit by bit from the patterns of spec/30_encoding.md -/

theorem test_decode_family0 :
    decode 0b0000000011100000 = some .cls ∧ decode 0b0000000011101110 = some .ret ∧
    decode 0b0000000000000000 = none ∧ decode 0b0000000100100011 = none := by decide

theorem test_decode_jumps :
    decode 0b0001101010111100 = some (.jp 0xABC) ∧ decode 0b0010101010111100 = some (.call 0xABC) ∧
    decode 0b1011000100100011 = some (.jpV0 0x123) := by decide

theorem test_decode_skips :
    decode 0b0011000101000010 = some (.seByte 1 0x42) ∧ decode 0b0100000101000010 = some (.sneByte 1 0x42) ∧
    decode 0b0101000100100000 = some (.seReg 1 2) ∧ decode 0b1001000100100000 = some (.sneReg 1 2) := by decide

theorem test_decode_immediates :
    decode 0b0110101001000010 = some (.ldByte 10 0x42) ∧ decode 0b0111111100000001 = some (.addByte 15 0x01) ∧
    decode 0b1010001011110000 = some (.ldI 0x2F0) ∧ decode 0b1100001100001111 = some (.rnd 3 0x0F) := by decide

theorem test_decode_family8 :
    decode 0b1000001111100000 = some (.ldReg 3 14) ∧ decode 0b1000001111100001 = some (.orReg 3 14) ∧
    decode 0b1000001111100010 = some (.andReg 3 14) ∧ decode 0b1000001111100011 = some (.xorReg 3 14) ∧
    decode 0b1000001111100100 = some (.addReg 3 14) ∧ decode 0b1000001111100101 = some (.subReg 3 14) ∧
    decode 0b1000001111100110 = some (.shrReg 3 14) ∧ decode 0b1000001111100111 = some (.subnReg 3 14) ∧
    decode 0b1000001111101110 = some (.shlReg 3 14) := by decide

theorem test_decode_display_and_keys :
    decode 0b1101000110100101 = some (.drw 1 10 5) ∧ decode 0b1110000110011110 = some (.skp 1) ∧
    decode 0b1110000110100001 = some (.sknp 1) := by decide

theorem test_decode_familyF :
    decode 0b1111000100000111 = some (.ldVxDt 1) ∧ decode 0b1111000100001010 = some (.ldVxK 1) ∧
    decode 0b1111000100010101 = some (.ldDtVx 1) ∧ decode 0b1111000100011000 = some (.ldStVx 1) ∧
    decode 0b1111000100011110 = some (.addIVx 1) ∧ decode 0b1111000100101001 = some (.ldFVx 1) ∧
    decode 0b1111000100110011 = some (.ldBVx 1) ∧ decode 0b1111000101010101 = some (.ldMemVx 1) ∧
    decode 0b1111000101100101 = some (.ldVxMem 1) := by decide

/-- Unknown words of L2.1 in every family that has them. -/
theorem test_decode_unknown :
    decode 0x00E1 = none ∧ decode 0x01E0 = none ∧ decode 0x5121 = none ∧ decode 0x8128 = none ∧
    decode 0x812F = none ∧ decode 0x912F = none ∧ decode 0xE19F = none ∧ decode 0xF166 = none ∧
    decode 0xF1FF = none := by decide

/-- The word the host numbers reaches the decoder in memory order, and a byte list is refused by name. -/
theorem test_decode_tableWord :
    decodeTableWord 16 0x812E = some (.shlReg 1 2) ∧ decodeTableWord 16 0x0000 = none ∧
    decodeBytes [0x81] = .error .truncated ∧ decodeBytes [0x81, 0x28] = .error (.unknownInstruction 0x8128) :=
  ⟨by decide, by decide, rfl, rfl⟩

/-! ### The cycle (L2.2) -/

theorem test_cycle_Y1 : faults (cycle (some 0) State.reset) (.unknownInstruction 0x200 0x0000) = true := by decide

theorem test_cycle_Y3_Y5 :
    faults (cycle (some 0) { State.reset with pc := 0x1FE }) (.outOfBounds 0x1FE none) = true ∧
    faults (cycle (some 0) { State.reset with pc := 0xFFF }) (.outOfBounds 0xFFF none) = true := by decide

theorem test_cycle_Y6 :
    ends (run 0x6001 { State.reset with pc := 0xFFE }) (fun t => t.reg 0 == 0x01 && t.pc == 0x1000) = true := by decide

theorem test_cycle_Y8 :
    ends (run 0x6123 { State.reset with pc := 0x201 }) (fun t => t.reg 1 == 0x23 && t.pc == 0x203) = true := by decide

theorem test_cycle_Y11 : faults (run 0x8128 State.reset) (.unknownInstruction 0x200 0x8128) = true := by decide

/-- A step from reset runs the placed word; the host's other operations come first where they are listed. -/
theorem test_step_placed :
    ends (step (State.reset.withFetchWord 16 0x6A42)) (fun t => t.reg 10 == 0x42 && t.pc == 0x202) = true := by decide

theorem test_step_listed :
    ends (step { State.reset with hostOps := [.keySet 7 true, .tick] })
      (fun t => t.keyPressed 7 && t.hostOps == [.tick]) = true := by decide

/-! ### Control transfer and skips (L2.3) -/

theorem test_ret_F1 : faults (run 0x00EE State.reset) (.stackUnderflow 0x200 0x00EE) = true := by decide

theorem test_ret_F2 :
    ends (run 0x00EE { State.reset with sp := 2, stack := (State.reset.stack.set 0 0x300).set 1 0x456 })
      (fun t => t.sp == 1 && t.pc == 0x456 && t.stack[1] == 0x456) = true := by decide

theorem test_jp_F7 : ends (run 0x1FFF State.reset) (fun t => t.pc == 0xFFF) = true := by decide

theorem test_call_F5 :
    ends (run 0x2ABC { State.reset with sp := 15 }) (fun t => t.stack[15] == 0x202 && t.sp == 16 && t.pc == 0xABC) = true := by
  decide

theorem test_call_F6 : faults (run 0x2ABC { State.reset with sp := 16 }) (.stackOverflow 0x200 0x2ABC) = true := by decide

theorem test_seByte_F13_F14 :
    ends (run 0x3142 (start [(1, 0x42)])) (fun t => t.pc == 0x204) = true ∧
    ends (run 0x3142 (start [(1, 0x41)])) (fun t => t.pc == 0x202) = true := by decide

theorem test_sneByte_F15_F16 :
    ends (run 0x4142 (start [(1, 0x42)])) (fun t => t.pc == 0x202) = true ∧
    ends (run 0x4142 (start [(1, 0x41)])) (fun t => t.pc == 0x204) = true := by decide

theorem test_seReg_F17_F18 :
    ends (run 0x5120 (start [(1, 0x07), (2, 0x07)])) (fun t => t.pc == 0x204) = true ∧
    ends (run 0x5120 (start [(1, 0x07), (2, 0x08)])) (fun t => t.pc == 0x202) = true := by decide

theorem test_sneReg_F20_F21 :
    ends (run 0x9120 (start [(1, 0x07), (2, 0x07)])) (fun t => t.pc == 0x202) = true ∧
    ends (run 0x9120 (start [(1, 0x07), (2, 0x08)])) (fun t => t.pc == 0x204) = true := by decide

theorem test_jpV0_F10_F12 :
    ends (run 0xBFFF (start [(0, 0xFF)])) (fun t => t.pc == 0x10FE) = true ∧
    ends (run 0xB300 (start [(0, 0x04), (3, 0x99)])) (fun t => t.pc == 0x304) = true := by decide

/-! ### Arithmetic, logic, shifts, random (L2.4) -/

theorem test_ldByte_A1 : ends (run 0x6A42 State.reset) (fun t => t.reg 10 == 0x42) = true := by decide

theorem test_addByte_A3_A5 :
    ends (run 0x7001 (start [(0, 0xFF), (15, 0xAA)])) (fun t => t.reg 0 == 0 && t.reg 15 == 0xAA) = true ∧
    ends (run 0x7F01 (start [(15, 0xFF)])) (fun t => t.reg 15 == 0) = true := by decide

theorem test_ldReg_A6 :
    ends (run 0x8010 (start [(0, 0x12), (1, 0x99)])) (fun t => t.reg 0 == 0x99 && t.reg 1 == 0x99) = true := by decide

theorem test_orReg_A7 :
    ends (run 0x8011 (start [(0, 0xF0), (1, 0x0F), (15, 0xAA)])) (fun t => t.reg 0 == 0xFF && t.reg 15 == 0xAA) = true := by
  decide

theorem test_andReg_A8 :
    ends (run 0x8012 (start [(0, 0xF0), (1, 0x3C), (15, 0xAA)])) (fun t => t.reg 0 == 0x30 && t.reg 15 == 0xAA) = true := by
  decide

theorem test_xorReg_A9 :
    ends (run 0x8013 (start [(0, 0xF0), (1, 0x3C), (15, 0xAA)])) (fun t => t.reg 0 == 0xCC && t.reg 15 == 0xAA) = true := by
  decide

theorem test_addReg_A11 :
    ends (run 0x8014 (start [(0, 0xC8), (1, 0x64), (15, 0xAA)])) (fun t => t.reg 0 == 0x2C && t.reg 15 == 0x01) = true := by
  decide

theorem test_addReg_A40_A37 :
    ends (run 0x8F14 (start [(1, 0xF0), (15, 0x30)])) (fun t => t.reg 15 == 0x20) = true ∧
    ends (run 0x81F4 (start [(1, 0x10), (15, 0x05)])) (fun t => t.reg 1 == 0x15 && t.reg 15 == 0x00) = true := by decide

theorem test_subReg_A18_A19 :
    ends (run 0x8015 (start [(0, 0x03), (1, 0x0A)])) (fun t => t.reg 0 == 0xF9 && t.reg 15 == 0x00) = true ∧
    ends (run 0x8015 (start [(0, 0x05), (1, 0x05)])) (fun t => t.reg 0 == 0x00 && t.reg 15 == 0x00) = true := by decide

theorem test_subReg_A43_A45 :
    ends (run 0x81F5 (start [(1, 0x10), (15, 0x05)])) (fun t => t.reg 1 == 0x0F && t.reg 15 == 0x01) = true ∧
    ends (run 0x8F15 (start [(1, 0x02), (15, 0x05)])) (fun t => t.reg 15 == 0xFF) = true := by decide

theorem test_shrReg_A29 :
    ends (run 0x8016 (start [(0, 0x04), (1, 0xFF)])) (fun t => t.reg 0 == 0x02 && t.reg 15 == 0x00) = true := by decide

theorem test_shrReg_A27_A53 :
    ends (run 0x8006 (start [(0, 0xFF)])) (fun t => t.reg 0 == 0x7F && t.reg 15 == 0x01) = true ∧
    ends (run 0x8F06 (start [(15, 0x03)])) (fun t => t.reg 15 == 0x00) = true := by decide

theorem test_subnReg_A22_A24 :
    ends (run 0x8017 (start [(0, 0x03), (1, 0x0A)])) (fun t => t.reg 0 == 0x07 && t.reg 15 == 0x01) = true ∧
    ends (run 0x8017 (start [(0, 0x05), (1, 0x05)])) (fun t => t.reg 0 == 0x00 && t.reg 15 == 0x00) = true := by decide

theorem test_subnReg_A48_A50 :
    ends (run 0x81F7 (start [(1, 0x03), (15, 0x05)])) (fun t => t.reg 1 == 0xFE && t.reg 15 == 0x01) = true ∧
    ends (run 0x8F17 (start [(1, 0x09), (15, 0x05)])) (fun t => t.reg 15 == 0x08) = true := by decide

theorem test_shlReg_A30 :
    ends (run 0x800E (start [(0, 0x81)])) (fun t => t.reg 0 == 0x02 && t.reg 15 == 0x01) = true := by decide

theorem test_shlReg_A54_A55 :
    ends (run 0x8F0E (start [(15, 0x81)])) (fun t => t.reg 15 == 0x02) = true ∧
    ends (run 0x8F0E (start [(15, 0x7F)])) (fun t => t.reg 15 == 0x00) = true := by decide

theorem test_rnd_A34 :
    ends (cycle (some 0xB7) (State.reset.placeWord 0xC30F)) (fun t => t.reg 3 == 0x07 && t.pc == 0x202) = true := by decide

/-! ### Index register and memory (L2.5) -/

theorem test_ldI_M1 : ends (run 0xA2F0 State.reset) (fun t => t.index == 0x2F0) = true := by decide

theorem test_addIVx_M3_M4 :
    ends (run 0xF41E { start [(4, 0x01), (15, 0xAA)] with index := 0x0FFF })
      (fun t => t.index == 0x1000 && t.reg 15 == 0xAA) = true ∧
    ends (run 0xF41E { start [(4, 0xFF)] with index := 0xFFFF }) (fun t => t.index == 0x00FE) = true := by decide

theorem test_ldFVx_M6_M8 :
    ends (run 0xF129 (start [(1, 0x0F)])) (fun t => t.index == 0x009B) = true ∧
    ends (run 0xF129 (start [(1, 0xFF)])) (fun t => t.index == 0x054B) = true := by decide

theorem test_ldBVx_M14 :
    ends (run 0xF133 { start [(1, 0x7B)] with index := 0xFFD })
      (fun t => t.load 0xFFD == some 1 && t.load 0xFFE == some 2 && t.load 0xFFF == some 3) = true := by decide

theorem test_ldBVx_M15 :
    faults (run 0xF133 { start [(1, 0x7B)] with index := 0xFFE }) (.outOfBounds 0x200 (some 0xF133)) = true := by decide

theorem test_ldMemVx_M17 :
    ends (run 0xF255 { start [(0, 1), (1, 2), (2, 3), (3, 4)] with index := 0x400 })
      (fun t => t.load 0x400 == some 1 && t.load 0x402 == some 3 && t.load 0x403 == some 0 && t.index == 0x400) = true := by
  decide

theorem test_ldMemVx_M20 :
    faults (run 0xFF55 { start [(0, 1)] with index := 0xFF1 }) (.outOfBounds 0x200 (some 0xFF55)) = true := by decide

theorem test_ldVxMem_M21 :
    ends (run 0xF265 (withBytes 0x400 [7, 8, 9, 10] { start [(3, 0x33)] with index := 0x400 }))
      (fun t => t.reg 0 == 7 && t.reg 2 == 9 && t.reg 3 == 0x33 && t.index == 0x400) = true := by decide

theorem test_ldVxMem_M22 :
    faults (run 0xF265 (withBytes 0xFFE [5, 6] { State.reset with index := 0xFFE }))
      (.outOfBounds 0x200 (some 0xF265)) = true := by decide

/-- The font region can be written (M18), and reads as FONT where nothing wrote. -/
theorem test_font_region (b : Byte) :
    ((State.reset.mem.put 0x50 b).get 0x50 = b) ∧ State.reset.load 0x9F = some (Config.font 79) :=
  ⟨Memory.get_put_self _ _ _, rfl⟩

/-! ### Display (L2.6) -/

theorem test_cls_G1 :
    ends (run 0x00E0 ((start [(3, 0x12)]).setPixel 5 5 true)) (fun t => !t.pixel 5 5 && !t.pixel 31 63 && t.reg 3 == 0x12) = true := by
  decide

theorem test_drw_G2_G5 :
    ends (run 0xD011 ((withBytes 0x300 [0x81] { start [(15, 0x09)] with index := 0x300 }).setPixel 0 0 true))
      (fun t => !t.pixel 0 0 && t.pixel 0 7 && t.reg 15 == 0x01) = true ∧
    ends (run 0xD011 (withBytes 0x300 [0x80] { start [(0, 67), (1, 33)] with index := 0x300 }))
      (fun t => t.pixel 1 3 && !t.pixel 0 0 && t.pixelCell 1 3 == 0xFFFFFFFF && t.reg 15 == 0x00) = true := by decide

theorem test_drw_G4_G7 :
    faults (run 0xD011 (withBytes 0x300 [0xF8] { start [(0, 60)] with index := 0x300 }))
      (.outOfBounds 0x200 (some 0xD011)) = true ∧
    faults (run 0xD012 (withBytes 0x300 [0x80, 0x01] { start [(1, 31)] with index := 0x300 }))
      (.outOfBounds 0x200 (some 0xD012)) = true := by decide

/-! ### Keypad and timers (L2.7) -/

theorem test_skp_K1_K2 :
    ends (run 0xE19E (pressed 5 (start [(1, 5)]))) (fun t => t.pc == 0x204) = true ∧
    ends (run 0xE19E (start [(1, 5)])) (fun t => t.pc == 0x202) = true := by decide

theorem test_skp_K5 : faults (run 0xE19E (start [(1, 0x10)])) (.outOfBounds 0x200 (some 0xE19E)) = true := by decide

theorem test_sknp_K3_K4 :
    ends (run 0xE1A1 (pressed 5 (start [(1, 5)]))) (fun t => t.pc == 0x202) = true ∧
    ends (run 0xE1A1 (start [(1, 5)])) (fun t => t.pc == 0x204) = true := by decide

theorem test_sknp_K6 : faults (run 0xE1A1 (start [(1, 0xFF)])) (.outOfBounds 0x200 (some 0xE1A1)) = true := by decide

theorem test_ldVxK_K7_K9 :
    ends (run 0xF20A (pressed 9 (pressed 3 State.reset))) (fun t => t.reg 2 == 0x03 && t.pc == 0x202) = true ∧
    ends (run 0xFF0A (pressed 15 (start [(15, 0x09)]))) (fun t => t.reg 15 == 0x0F) = true := by decide

theorem test_ldVxK_K8 : ends (run 0xF20A State.reset) (fun t => t.pc == 0x200 && t.reg 2 == 0) = true := by decide

theorem test_ldVxDt_K10 : ends (run 0xF507 { State.reset with dt := 0x3C }) (fun t => t.reg 5 == 0x3C) = true := by decide

theorem test_ldDtVx_K11 :
    ends (run 0xF315 (start [(3, 0x10)])) (fun t => t.dt == 0x10 && t.st == 0) = true := by decide

theorem test_ldStVx_K12_K13 :
    ends (run 0xF318 (start [(3, 0x05)])) (fun t => t.st == 0x05 && t.soundOn && t.dt == 0) = true ∧
    ends (run 0xF318 { State.reset with st := 0x09 }) (fun t => t.st == 0 && !t.soundOn) = true := by decide

/-! ### Host operations (L2.8) -/

theorem test_tick_H1_H3 :
    ends (perform .tick { State.reset with dt := 1 }) (fun t => t.dt == 0 && t.st == 0) = true ∧
    ends (perform .tick { State.reset with dt := 0x3C, st := 0x02 }) (fun t => t.dt == 0x3B && t.st == 0x01) = true := by
  decide

theorem test_load_H5 :
    perform (.load (List.replicate 3585 0x01)) State.reset = .fault .romTooLarge := by
  rw [perform, loadProgram, List.length_replicate]
  exact if_pos (by decide)

theorem test_load_H7 :
    ends (perform (.load [0xAA, 0xBB]) (withBytes 0x200 [0x11, 0x22, 0x33, 0x44] { State.reset with pc := 0x204 }))
      (fun t => t.load 0x200 == some 0xAA && t.load 0x201 == some 0xBB && t.load 0x202 == some 0x33 && t.pc == 0x204) =
      true := by decide

theorem test_keySet_H8_H9 :
    ends (perform (.keySet 0xA true) State.reset) (fun t => t.keyPressed 0xA && !t.keyPressed 0xB) = true ∧
    ends (perform (.keySet 0xA false) (pressed 0xA State.reset)) (fun t => t == State.reset) = true := by decide

theorem test_reset_H10 :
    ends (perform .reset (withBytes 0x300 [1] { start [(4, 5)] with sp := 3, dt := 9, pc := 0x345 }))
      (fun t => t == State.reset) = true := by decide

/-! ### Witnesses: hypotheses that can be met -/

/-- The state in which the word stands at pc, and its fetch. -/
def placed (w : Word) : State := State.reset.placeWord w

theorem test_witness_EncodeOfDecode_DecodeFollowsOpcodeTable : decode 0x8014 = some (.addReg 0 1) := by decide

theorem test_witness_UnknownWordsByFamily :
    decode 0x812F = none ∧ unknownWord 0x812F = true ∧ decode 0x812E ≠ none ∧ unknownWord 0x812E = false := by decide

theorem test_witness_StepRunsDecodedInstruction :
    ((placed 0x6A42).hostOps = [] ∧ (placed 0x6A42).fetchWord = some 0x6A42 ∧ decode 0x6A42 = some (.ldByte 10 0x42)) ∧
    (let s : State := { placed 0xC30F with hostOps := [.cycle 0xB7, .tick] }
     s.hostOps = [.cycle 0xB7, .tick] ∧ s.fetchWord = some 0xC30F ∧ decode 0xC30F = some (.rnd 3 0x0F)) ∧
    ({ State.reset with hostOps := [.tick] } : State).hostOps = [.tick] := by decide

theorem test_witness_FetchIsBigEndian :
    (0x200 ≤ State.reset.pc.toNat ∧ State.reset.pc.toNat ≤ 4094) ∧
    (let s : State := { State.reset with pc := 4094 }; 0x200 ≤ s.pc.toNat ∧ s.pc.toNat ≤ 4094) := by decide

/-- Each clause at both ends of its range, and a cycle that succeeds at the last legal address. -/
theorem test_witness_FetchRangeCheck :
    (let s : State := { State.reset with pc := 4095 }; s.pc.toNat > 4094) ∧
    (let s : State := { State.reset with pc := 0x1FF }; s.pc.toNat < 0x200) ∧
    (let s : State := { State.reset with pc := 4094 }; 0x200 ≤ s.pc.toNat ∧ s.pc.toNat ≤ 4094) ∧
    (∃ t, cycle none (({ State.reset with pc := 4094 } : State).placeWord 0x6001) = .next t) ∧
    (∃ t, cycle none (placed 0x6001) = .next t) :=
  ⟨by decide, by decide, by decide, ⟨_, rfl⟩, ⟨_, rfl⟩⟩

theorem test_witness_UnknownWordFails :
    ((placed 0x812F).fetchWord = some 0x812F ∧ decode 0x812F = none) ∧
    (0x200 ≤ State.reset.pc.toNat ∧ State.reset.pc.toNat ≤ 4094 ∧ State.reset.load State.reset.pc.toNat = some 0 ∧
      State.reset.load (State.reset.pc.toNat + 1) = some 0) ∧
    (let s : State := { State.reset with pc := 4094 }
     0x200 ≤ s.pc.toNat ∧ s.pc.toNat ≤ 4094 ∧ s.load s.pc.toNat = some 0 ∧ s.load (s.pc.toNat + 1) = some 0) := by decide

/-- A failed CYCLE of each kind, with and without a fetched word, and a failed LOAD. -/
theorem test_witness_FailureReport_FailedCycleFailsAgain :
    perform (.cycle 0) State.reset = .fault (.unknownInstruction 0x200 0x0000) ∧
    perform (.cycle 0) (placed 0x00EE) = .fault (.stackUnderflow 0x200 0x00EE) ∧
    perform (.cycle 0) { placed 0x2ABC with sp := 16 } = .fault (.stackOverflow 0x200 0x2ABC) ∧
    perform (.cycle 0) { State.reset with pc := 0xFFF } = .fault (.outOfBounds 0xFFF none) ∧
    perform (.load (List.replicate 3585 0)) State.reset = .fault .romTooLarge := by
  refine ⟨rfl, rfl, rfl, rfl, ?_⟩
  rw [perform, loadProgram, List.length_replicate]
  exact if_pos (by decide)

theorem test_witness_OnlyRandomReadsInput :
    (Instr.addReg 0 1).mnemonic ≠ "CXKK" ∧ Instr.ret.mnemonic ≠ "CXKK" := by decide

theorem test_witness_EachHandlerRaisesOneKind :
    (State.reset.sp.toNat ≤ 16 ∧ exec .ret State.reset = .fault (.stackUnderflow 0x1FE 0x00EE)) ∧
    (({ State.reset with sp := 16 } : State).sp.toNat ≤ 16 ∧
      exec (.call 0x300) { State.reset with sp := 16 } = .fault (.stackOverflow 0x1FE 0x2300)) ∧
    exec (.skp 1) (start [(1, 16)]) = .fault (.outOfBounds 0x1FE (some 0xE19E)) :=
  ⟨⟨by decide, rfl⟩, ⟨by decide, rfl⟩, rfl⟩

/-- Both sides of the equivalence occur, at SP = 0 and SP = 16. -/
theorem test_witness_CompletesExactlyWhen :
    State.reset.sp.toNat ≤ 16 ∧ ({ State.reset with sp := 16 } : State).sp.toNat ≤ 16 ∧ ¬ Completes State.reset .ret ∧
    Completes { State.reset with sp := 16 } .ret ∧ ¬ Completes { State.reset with sp := 16 } (.call 0x300) ∧
    Completes State.reset (.call 0x300) :=
  ⟨by decide, by decide, fun h => h rfl, fun h => absurd h (by decide), fun h => h rfl,
    fun h => absurd h (by decide)⟩

/-- A fetched and decoded word whose cycle succeeds, and one whose cycle fails. -/
theorem test_witness_PcAfterCycle_CycleLeavesTimersAndKeys :
    ((placed 0x6A42).fetchWord = some 0x6A42 ∧ decode 0x6A42 = some (.ldByte 10 0x42) ∧
      ∃ t, perform (.cycle 7) (placed 0x6A42) = .next t) ∧
    perform (.cycle 7) (placed 0x812F) = .fault (.unknownInstruction 0x200 0x812F) :=
  ⟨⟨by decide, by decide, _, rfl⟩, rfl⟩

theorem test_witness_JumpToSelfChangesNothing :
    (placed 0x1200).fetchWord = some 0x1200 ∧ decode 0x1200 = some (.jp 0x200) ∧
      (0x200 : Addr).toNat = (placed 0x1200).pc.toNat := by decide

theorem test_witness_InstructionFrame_RegisterFrame : ∃ t, exec (.addReg 0 1) State.reset = .next t := ⟨_, rfl⟩

/-- The addresses next to the stored bytes, on both sides, and an instruction that stores nothing. -/
theorem test_witness_MemoryFrame :
    (∃ t, exec (.ldMemVx 2) { State.reset with index := 0x300 } = .next t) ∧
    ¬ StoredAt (.ldMemVx 2) { State.reset with index := 0x300 } 0x303 ∧
    ¬ StoredAt (.ldMemVx 2) { State.reset with index := 0x300 } 0x2FF ∧
    ¬ StoredAt (.ldByte 0 1) State.reset 0 := by
  refine ⟨⟨_, rfl⟩, ?_, ?_, ?_⟩ <;> unfold StoredAt <;> decide

theorem test_witness_StepKeepsInv_StepKeepsPcBounded :
    Inv (placed 0x6A42) ∧ PcBounded (placed 0x6A42) ∧ (∃ t, step (placed 0x6A42) = .next t) ∧
    (placed 0x6A42).fetchWord ≠ none :=
  ⟨by decide, by decide, ⟨_, rfl⟩, by decide⟩

theorem test_witness_ReachableStatesAreLegal : Reachable State.reset ∧ Reachable (State.reset.setKey 5 true) :=
  ⟨.construct, .operate (.keySet 5 true) .construct rfl⟩

theorem test_witness_ReturnPopsNewestEntry :
    (let s : State := { State.reset with sp := 1 }; 1 ≤ s.sp.toNat ∧ s.sp.toNat ≤ 16) ∧
    (let s : State := { State.reset with sp := 16 }; 1 ≤ s.sp.toNat ∧ s.sp.toNat ≤ 16) ∧
    State.reset.sp.toNat = 0 := by decide

theorem test_witness_CallPushesAndJumps :
    State.reset.sp.toNat < 16 ∧ ({ State.reset with sp := 15 } : State).sp.toNat < 16 ∧
    ({ State.reset with sp := 16 } : State).sp.toNat = 16 ∧ (3 : Fin 16).val ≠ State.reset.sp.toNat := by decide

theorem test_witness_NestedCallsReturn :
    ([0x300] : List Addr) ≠ [] ∧ State.reset.sp.toNat + ([0x300] : List Addr).length ≤ 16 ∧
    (List.replicate 16 0x300 : List Addr) ≠ [] ∧ State.reset.sp.toNat + (List.replicate 16 (0x300 : Addr)).length ≤ 16 := by
  decide

/-- Operands that are VF and operands that are not, for the statements that tell them apart: `LoadAndCopyWriteX`,
`AddImmediateWraps`, `AddWritesCarry`, `SubtractWritesFlagFirst`, `ReverseSubtractWritesFlagFirst`, `ShiftsCaptureBit` and
`ShiftPairsClearOneBit`. -/
theorem test_witness_VF_operands : (0 : Reg) ≠ vf ∧ (14 : Reg) ≠ vf ∧ (15 : Reg) = vf := by decide

theorem test_witness_RandomUnderMask : ({ State.reset with rnd := some 0xB7 } : State).rnd = some 0xB7 := rfl

theorem test_witness_DecimalDigitsStored :
    (let s : State := { State.reset with index := 4093 }
     s.index.toNat + 2 ≤ 4095 ∧ ¬ StoredAt (.ldBVx 0) s 4092) ∧
    ({ State.reset with index := 4094 } : State).index.toNat + 2 > 4095 := by
  refine ⟨⟨by decide, ?_⟩, by decide⟩
  unfold StoredAt
  decide

theorem test_witness_BlockStore_BlockLoad_StoreThenLoadRestores :
    ({ State.reset with index := 4080 } : State).index.toNat + (15 : Reg).val ≤ 4095 ∧
    ({ State.reset with index := 4081 } : State).index.toNat + (15 : Reg).val > 4095 ∧
    (0 : Reg) ≤ 15 ∧ (15 : Reg) ≤ 15 ∧ (3 : Reg) < 4 := by decide

theorem test_witness_StoreChangesNextInstruction :
    1 ≤ (1 : Reg).val ∧ (let s : State := { State.reset with index := 0x200 }
      s.index = s.pc ∧ 0x200 ≤ s.pc.toNat ∧ s.pc.toNat ≤ 4094) ∧
    (∃ t, exec (.ldMemVx 1) { State.reset with index := 0x200 } = .next t) ∧
    (∃ t, exec (.ldMemVx 1) { State.reset with index := 4094, pc := 4094 } = .next t) :=
  ⟨by decide, by decide, ⟨_, rfl⟩, ⟨_, rfl⟩⟩

/-- A draw that fails is not legal. -/
theorem not_drawLegal {x y : Reg} {n : Nibble} {s : State} {f : Fault} (h : execDrw x y n s = .fault f) :
    ¬ DrawLegal s (s.reg x) (s.reg y) n := by
  intro hl
  obtain ⟨t, ht⟩ := execDrw_completes hl
  rw [h] at ht
  cases ht

/-- The state of G3 and G4: one sprite row at column 60. -/
def atColumn60 (b : Byte) : State := withBytes 0x300 [b] { start [(0, 60)] with index := 0x300 }

/-- The sprite byte 0xF0 at column 60 is legal, 0xF8 is not (G3, G4); a row address of 4096 is not, 4095 is (G9). -/
theorem test_witness_DrawXorsSprite :
    DrawLegal (atColumn60 0xF0) ((atColumn60 0xF0).reg 0) ((atColumn60 0xF0).reg 1) 1 ∧
    ¬ DrawLegal (atColumn60 0xF8) ((atColumn60 0xF8).reg 0) ((atColumn60 0xF8).reg 1) 1 ∧
    (let s : State := { State.reset with index := 0xFFF }
     ¬ DrawLegal s (s.reg 0) (s.reg 1) 2 ∧ DrawLegal s (s.reg 0) (s.reg 1) 1) :=
  ⟨(execDrw_eq_next rfl).1, not_drawLegal rfl, not_drawLegal rfl, (execDrw_eq_next rfl).1⟩

theorem test_witness_DrawTwiceRestores :
    (0 : Reg) ≠ vf ∧ (1 : Reg) ≠ vf ∧
    DrawLegal (atColumn60 0xF0) ((atColumn60 0xF0).reg 0) ((atColumn60 0xF0).reg 1) 1 ∧
    spriteCovers (atColumn60 0xF0) ((atColumn60 0xF0).reg 0) ((atColumn60 0xF0).reg 1) 1 0 63 = true ∧
    (atColumn60 0xF0).pixel 0 63 = false :=
  ⟨by decide, by decide, (execDrw_eq_next rfl).1, by decide, by decide⟩

/-- The case the flag clause of R115 leaves out: one sprite pixel, on before, drawn twice, ends with VF = 0 (log entry 13). -/
theorem test_draw_twice_over_lit_pixel :
    ends (runHandlers [.drw 0 1 1, .drw 0 1 1]
      ((withBytes 0x300 [0x80] { State.reset with index := 0x300 }).setPixel 0 0 true))
      (fun t => t.pixel 0 0 && t.reg 15 == 0) = true := by decide

theorem test_witness_SkipsOnKey :
    ((start [(1, 15)]).reg 1).toNat = (15 : Key).val ∧ ((start [(1, 0)]).reg 1).toNat = (0 : Key).val ∧
    ((start [(1, 16)]).reg 1).toNat > 15 := by decide

theorem test_witness_WaitTakesLowestKey :
    ((pressed 9 (pressed 3 State.reset)).keyPressed 3 = true ∧
      ∀ j : Key, j < 3 → (pressed 9 (pressed 3 State.reset)).keyPressed j = false) ∧
    (∀ j : Key, j < 0 → (pressed 0 State.reset).keyPressed j = false) ∧
    (∀ k : Key, State.reset.keyPressed k = false) := by decide

theorem test_witness_LoadCopiesProgram :
    (List.replicate 3584 (1 : Byte)).length ≤ 3584 ∧ (List.replicate 3585 (1 : Byte)).length > 3584 ∧
    3583 < (List.replicate 3584 (1 : Byte)).length ∧ 0x1FF < 0x200 ∧
    0x200 + (List.replicate 3584 (1 : Byte)).length ≤ 4096 := by
  rw [List.length_replicate, List.length_replicate]
  decide

theorem test_witness_KeySetWritesOneKey : (3 : Key) ≠ 4 := by decide

theorem test_witness_FreshBootFetchesProgram : ∃ s, FreshBoot [0x60, 0x05, 0x70, 0x03] s := ⟨_, rfl⟩

theorem test_witness_GlyphIsDrawnFromFont :
    ∀ d : Fin 16, let s : State := { State.reset with index := BitVec.ofNat 16 (0x50 + 5 * d.val) }
      s.mem = [] ∧ s.index.toNat = 0x50 + 5 * d.val ∧ s.reg 0 = 0 ∧ s.reg 1 = 0 := by decide

theorem test_witness_GlyphIsDrawnFromFont_blank (py : Fin 32) (px : Fin 64) : State.reset.pixel py px = false := by
  simp [State.pixel, State.reset]

end Sys2Proof.Tests
end

section
/-! The frame rule of spec/10_state.md R13 to R26 and spec/20_memory.md R35, R37: the handlers that share a shape leave the
same parts alone, and so every instruction leaves alone what its row of `writtenParts` does not list. -/

namespace Sys2Proof.Machine

/-! ### Handlers that share a shape -/

/-- A handler that always answers `u` has the frame of `u`. -/
theorem sameOutside_of_next {parts : List Part} {s u t : State} (hu : SameOutside parts s u)
    (h : (.next u : Result) = .next t) : SameOutside parts s t :=
  Host.Outcome.next.inj h ▸ hu

theorem sameOutside_skipIf (s : State) (c : Bool) : SameOutside [.pc] s (s.skipIf c) := by
  rw [State.skipIf_eq]
  exact sameOutside_pc s _

/-- EX9E and EXA1 (spec/45_keys_timers.md R117, R118): a skip on the key a register names changes pc alone. -/
theorem skipOnKey_frame {ins : Instr} {b : Byte} {c : Key → Bool} {s t : State}
    (h : orOutOfBounds ins s ((keyOf b).map fun k => s.skipIf (c k)) = .next t) : SameOutside [.pc] s t := by
  obtain ⟨k, -, rfl⟩ := Option.map_eq_some_iff.1 (orOutOfBounds_eq_next.1 h)
  exact sameOutside_skipIf s (c k)

/-- FX33 and FX55 (spec/43_index_memory.md R108, R109): a run of stores changes memory alone. -/
theorem storeBytes_frame {ins : Instr} {k : Nat} {bytes : List Byte} {s t : State}
    (h : orOutOfBounds ins s (storeFrom k bytes s) = .next t) : SameOutside [.mem] s t := by
  obtain ⟨-, rfl⟩ := storeFrom_eq_some.1 (orOutOfBounds_eq_next.1 h)
  exact sameOutside_mem s _

/-! ### Handlers with a shape of their own -/

theorem execRet_frame {s t : State} (h : execRet s = .next t) : SameOutside [.pc, .sp] s t := by
  obtain ⟨-, -, rfl⟩ := execRet_eq_next.1 h
  exact sameOutside_pcSp s _ _

theorem execCall_frame {nnn : Addr} {s t : State} (h : execCall nnn s = .next t) :
    SameOutside [.pc, .sp, .stack] s t := by
  obtain ⟨-, rfl⟩ := execCall_eq_next.1 h
  exact sameOutside_pcSpStack s _ _ _

theorem execLdVxMem_frame {x : Reg} {s t : State} (h : execLdVxMem x s = .next t) : SameOutside [.regs] s t := by
  obtain ⟨-, ht, -⟩ := (loadRegs_spec (regsUpTo x) s).1 t (orOutOfBounds_eq_next.1 h)
  rw [ht]
  exact sameOutside_v s t.v

theorem execDrw_frame {x y : Reg} {n : Nibble} {s t : State} (h : execDrw x y n s = .next t) :
    SameOutside [.regs, .fb] s t := by
  obtain ⟨-, hdrawn⟩ := execDrw_eq_next h
  rw [hdrawn.frame]
  exact sameOutside_vfb s t.v t.fb

/-- FX0A (spec/45_keys_timers.md R120): a key found writes V[X] alone, and no key rewinds pc alone. -/
theorem execLdVxK_frame {x : Reg} {s t : State} (h : execLdVxK x s = .next t) : SameOutside [.regs, .pc] s t := by
  unfold execLdVxK at h
  cases hk : s.lowestKey with
  | some k =>
    rw [hk] at h
    exact (sameOutside_of_next (sameOutside_v s _) h).mono (by simp)
  | none =>
    rw [hk] at h
    exact (sameOutside_of_next (sameOutside_pc s _) h).mono (by simp)

/-! ### Every instruction -/

/-- The frame of every instruction, the constructors grouped by what their handlers write. -/
theorem exec_frame {ins : Instr} {s t : State} (h : exec ins s = .next t) : SameOutside (writtenParts ins) s t := by
  cases ins with
  | ldByte | addByte | ldReg | orReg | andReg | xorReg | addReg | subReg | shrReg | subnReg | shlReg | rnd | ldVxDt =>
    exact sameOutside_of_next (sameOutside_v s _) h
  | jp | jpV0 => exact sameOutside_of_next (sameOutside_pc s _) h
  | seByte | sneByte | seReg | sneReg => exact sameOutside_of_next (sameOutside_skipIf s _) h
  | ldI | addIVx | ldFVx => exact sameOutside_of_next (sameOutside_index s _) h
  | ldDtVx => exact sameOutside_of_next (sameOutside_dt s _) h
  | ldStVx => exact sameOutside_of_next (sameOutside_st s _) h
  | cls => exact sameOutside_of_next (sameOutside_fb s _) h
  | skp | sknp => exact skipOnKey_frame h
  | ldBVx | ldMemVx => exact storeBytes_frame h
  | ldVxMem => exact execLdVxMem_frame h
  | ldVxK => exact execLdVxK_frame h
  | drw => exact execDrw_frame h
  | ret => exact execRet_frame h
  | call => exact execCall_frame h

/-- Settles O18: the frame of each instruction, by the cases of `exec_frame`. -/
theorem instructionFrame : Obligations.InstructionFrame := fun _ _ _ h => exec_frame h

end Sys2Proof.Machine
end

section
/-! The facts an invariant needs about every handler and every host operation: a handler's frame field by field, the
registers it may write, what it does to memory and to the stack, and where it leaves pc. -/

namespace Sys2Proof.Machine

/-! ### A handler's frame, field by field -/

theorem SameOutside.regs {parts : List Part} {s t : State} (h : SameOutside parts s t) (hp : Part.regs ∉ parts)
    (r : Reg) : t.reg r = s.reg r := by
  obtain ⟨hregs, -⟩ := h
  exact hregs hp r

theorem SameOutside.pc {parts : List Part} {s t : State} (h : SameOutside parts s t) (hp : Part.pc ∉ parts) :
    t.pc = s.pc := by
  obtain ⟨-, -, hpc, -⟩ := h
  exact hpc hp

theorem SameOutside.sp {parts : List Part} {s t : State} (h : SameOutside parts s t) (hp : Part.sp ∉ parts) :
    t.sp = s.sp := by
  obtain ⟨-, -, -, hsp, -⟩ := h
  exact hsp hp

theorem SameOutside.stack {parts : List Part} {s t : State} (h : SameOutside parts s t) (hp : Part.stack ∉ parts)
    (j : Fin 16) : t.stack[j] = s.stack[j] := by
  obtain ⟨-, -, -, -, hstack, -⟩ := h
  exact hstack hp j

/-- What holds of the state a handler always answers holds of its next state. -/
theorem holds_of_next {P : State → Prop} {u t : State} (h : (.next u : Result) = .next t) (hu : P u) : P t :=
  Host.Outcome.next.inj h ▸ hu

theorem mem_of_next {m : Memory} {u t : State} (h : (.next u : Result) = .next t) (hu : u.mem = m) : t.mem = m :=
  holds_of_next (P := fun v => v.mem = m) h hu

theorem pc_le_of_next {n : Nat} {u t : State} (h : (.next u : Result) = .next t) (hu : u.pc.toNat ≤ n) :
    t.pc.toNat ≤ n :=
  holds_of_next (P := fun v => v.pc.toNat ≤ n) h hu

/-- Everything EX9E and EXA1 can do when they complete (spec/45_keys_timers.md R117, R118): skip or not. -/
theorem skipOnKey_eq_next {ins : Instr} {b : Byte} {c : Key → Bool} {s t : State}
    (h : orOutOfBounds ins s ((keyOf b).map fun k => s.skipIf (c k)) = .next t) : ∃ d, t = s.skipIf d := by
  obtain ⟨k, -, rfl⟩ := Option.map_eq_some_iff.1 (orOutOfBounds_eq_next.1 h)
  exact ⟨c k, rfl⟩

/-- Everything FX0A can do (R120): write the lowest pressed key to V[X], or rewind pc. -/
theorem execLdVxK_eq_next {x : Reg} {s t : State} (h : execLdVxK x s = .next t) :
    (∃ b, t = s.setReg x b) ∨ t = s.setPc (s.pc - 2) := by
  unfold execLdVxK at h
  cases hk : s.lowestKey with
  | some k =>
    rw [hk] at h
    exact .inl ⟨_, (Host.Outcome.next.inj h).symm⟩
  | none =>
    rw [hk] at h
    exact .inr (Host.Outcome.next.inj h).symm

/-! ### General registers (spec/10_state.md R16) -/

theorem regsSameBut_setReg (s : State) (x : Reg) (b : Byte) : RegsSameBut [x] s (s.setReg x b) :=
  fun _ hr => s.reg_setReg_ne b (List.ne_of_not_mem_cons hr)

theorem regsSameBut_flagThenResult (flag : Byte) (x : Reg) (result : State → Byte) (s : State) :
    RegsSameBut [vf, x] s (flagThenResult flag x result s) := by
  intro r hr
  obtain ⟨hvf, hx⟩ : r ≠ vf ∧ r ≠ x := by simpa using hr
  rw [flagThenResult_reg, if_neg hx, if_neg hvf]

theorem execLdVxK_regs {x : Reg} {s t : State} (h : execLdVxK x s = .next t) : RegsSameBut [x] s t := by
  obtain ⟨b, rfl⟩ | rfl := execLdVxK_eq_next h
  · exact regsSameBut_setReg s x b
  · exact fun _ _ => rfl

theorem execDrw_regs {x y : Reg} {n : Nibble} {s t : State} (h : execDrw x y n s = .next t) :
    RegsSameBut [vf] s t := by
  obtain ⟨-, hdrawn⟩ := execDrw_eq_next h
  intro r hr
  rw [hdrawn.regs r (List.ne_of_not_mem_cons hr)]
  exact regsSameBut_setReg s vf 0 r hr

theorem execLdVxMem_regs {x : Reg} {s t : State} (h : execLdVxMem x s = .next t) : RegsSameBut (regsUpTo x) s t := by
  obtain ⟨-, -, hregs⟩ := (loadRegs_spec (regsUpTo x) s).1 t (orOutOfBounds_eq_next.1 h)
  intro r hr
  rw [hregs r, if_neg hr]

/-- An instruction changes only the general registers of its row in R16; the instructions with no row leave the register
file alone by their frame. -/
theorem exec_regs {ins : Instr} {s t : State} (h : exec ins s = .next t) : RegsSameBut (writtenRegs ins) s t := by
  cases ins with
  | ldByte x | addByte x | ldReg x | orReg x | andReg x | xorReg x | rnd x | ldVxDt x =>
    exact holds_of_next h (regsSameBut_setReg s x _)
  | addReg x | subReg x | shrReg x | subnReg x | shlReg x =>
    exact holds_of_next h (regsSameBut_flagThenResult _ x _ s)
  | ldVxK => exact execLdVxK_regs h
  | drw => exact execDrw_regs h
  | ldVxMem => exact execLdVxMem_regs h
  | _ => exact fun r _ => (exec_frame h).regs (by simp [writtenParts]) r

/-- Settles O19: the register frame of each instruction, by the cases of `exec_regs`. -/
theorem registerFrame : Obligations.RegisterFrame := fun _ _ _ h => exec_regs h

/-! ### Memory (spec/20_memory.md R34, R41) -/

/-- `t`'s memory is `s`'s, or `s`'s with a run of bytes copied into cells of the machine. -/
def MemoryCopiedInto (s t : State) : Prop :=
  t.mem = s.mem ∨ ∃ a bytes, a + bytes.length ≤ Config.memSize ∧ t.mem = Memory.putBytes a bytes s.mem

theorem MemoryCopiedInto.wf {s t : State} (h : MemoryCopiedInto s t) (hs : s.mem.wf) : t.mem.wf := by
  obtain hsame | ⟨a, bytes, hfit, hcopied⟩ := h
  · rwa [hsame]
  · rw [hcopied]
    exact Memory.wf_putBytes bytes hfit hs

/-- FX33 and FX55 (spec/43_index_memory.md R108, R109): a run of stores that completes stays inside the cells. -/
theorem storeBytes_memory {ins : Instr} {k : Nat} {bytes : List Byte} {s t : State}
    (h : orOutOfBounds ins s (storeFrom k bytes s) = .next t) : MemoryCopiedInto s t := by
  obtain ⟨rfl | hfit, rfl⟩ := storeFrom_eq_some.1 (orOutOfBounds_eq_next.1 h)
  · exact .inl rfl
  · exact .inr ⟨_, _, hfit, rfl⟩

theorem State.skipIf_mem (s : State) (c : Bool) : (s.skipIf c).mem = s.mem := by
  rw [State.skipIf_eq, State.setPc_mem]

theorem skipOnKey_mem {ins : Instr} {b : Byte} {c : Key → Bool} {s t : State}
    (h : orOutOfBounds ins s ((keyOf b).map fun k => s.skipIf (c k)) = .next t) : t.mem = s.mem := by
  obtain ⟨d, rfl⟩ := skipOnKey_eq_next h
  exact s.skipIf_mem d

theorem execLdVxK_mem {x : Reg} {s t : State} (h : execLdVxK x s = .next t) : t.mem = s.mem := by
  obtain ⟨b, rfl⟩ | rfl := execLdVxK_eq_next h <;> rfl

theorem execLdVxMem_mem {x : Reg} {s t : State} (h : execLdVxMem x s = .next t) : t.mem = s.mem := by
  obtain ⟨-, ht, -⟩ := (loadRegs_spec (regsUpTo x) s).1 t (orOutOfBounds_eq_next.1 h)
  rw [ht]

theorem execDrw_mem {x y : Reg} {n : Nibble} {s t : State} (h : execDrw x y n s = .next t) : t.mem = s.mem := by
  obtain ⟨-, hdrawn⟩ := execDrw_eq_next h
  rw [hdrawn.mem, State.setReg_mem]

theorem execRet_mem {s t : State} (h : execRet s = .next t) : t.mem = s.mem := by
  obtain ⟨-, -, rfl⟩ := execRet_eq_next.1 h
  rfl

theorem execCall_mem {nnn : Addr} {s t : State} (h : execCall nnn s = .next t) : t.mem = s.mem := by
  obtain ⟨-, rfl⟩ := execCall_eq_next.1 h
  rfl

/-- What a handler does to memory as a list of cells. The frame rule speaks of what addresses read as; the canonical
form needs the list itself. -/
theorem exec_memory {ins : Instr} {s t : State} (h : exec ins s = .next t) : MemoryCopiedInto s t := by
  cases ins with
  | ldBVx | ldMemVx => exact storeBytes_memory h
  | seByte | sneByte | seReg | sneReg => exact .inl (mem_of_next h (s.skipIf_mem _))
  | skp | sknp => exact .inl (skipOnKey_mem h)
  | ldVxK => exact .inl (execLdVxK_mem h)
  | ldVxMem => exact .inl (execLdVxMem_mem h)
  | drw => exact .inl (execDrw_mem h)
  | ret => exact .inl (execRet_mem h)
  | call => exact .inl (execCall_mem h)
  | cls | jp | jpV0 | ldByte | addByte | ldReg | orReg | andReg | xorReg | addReg | subReg | shrReg | subnReg | shlReg
  | rnd | ldI | addIVx | ldFVx | ldVxDt | ldDtVx | ldStVx =>
    exact .inl (mem_of_next h rfl)

/-! ### The stack (spec/10_state.md R20, R21) -/

/-- SP is at most 16, and every stack entry in use is at most 4096: the part of `PcBounded` that is not about pc. -/
def StackBounded (s : State) : Prop :=
  s.sp.toNat ≤ Config.stackDepth ∧ ∀ j : Fin 16, j.val < s.sp.toNat → s.stack[j].toNat ≤ 4096

theorem pcBounded_iff {s : State} : PcBounded s ↔ s.pc.toNat ≤ 0x10FE ∧ StackBounded s := Iff.rfl

/-- Writing a bounded entry leaves an entry bounded if it was, or is the one written. -/
theorem stackEntry_set_le {stack : Vector Word 16} {i : Nat} {a : Word} {j : Fin 16} (hi : i < 16)
    (ha : a.toNat ≤ 4096) (hj : j.val ≠ i → stack[j].toNat ≤ 4096) : (stack.set i a hi)[j].toNat ≤ 4096 := by
  rw [Fin.getElem_fin, Vector.getElem_set]
  split
  · exact ha
  · rename_i hne
    exact hj (Ne.symm hne)

/-- SP after a pop that completes (spec/41_flow.md R79). -/
theorem sp_sub_one_toNat {sp : Byte} (h : sp ≠ 0) : (sp - 1).toNat + 1 = sp.toNat := by
  have hpos : sp.toNat ≠ 0 := fun h0 => h (BitVec.eq_of_toNat_eq h0)
  bv_omega

/-- SP after a push that completes (R81). -/
theorem sp_add_one_toNat {sp : Byte} (h : sp.toNat < Config.stackDepth) : (sp + 1).toNat = sp.toNat + 1 := by
  unfold Config.stackDepth at h
  bv_omega

/-- Every handler keeps SP within 0 to 16: 00EE lowers it from above 0, 2NNN raises it from below 16, and no other
handler writes it. -/
theorem exec_sp_le {ins : Instr} {s t : State} (hs : s.sp.toNat ≤ Config.stackDepth) (h : exec ins s = .next t) :
    t.sp.toNat ≤ Config.stackDepth := by
  cases ins with
  | ret =>
    obtain ⟨hne, -, rfl⟩ := execRet_eq_next.1 h
    have hsp := sp_sub_one_toNat hne
    show (s.sp - 1).toNat ≤ _
    omega
  | call =>
    obtain ⟨hlt, rfl⟩ := execCall_eq_next.1 h
    show (s.sp + 1).toNat ≤ _
    rw [sp_add_one_toNat hlt]
    exact hlt
  | _ =>
    rw [(exec_frame h).sp (by simp [writtenParts])]
    exact hs

/-- Every handler keeps the entries in use at most 4096: 2NNN pushes pc, 00EE leaves fewer entries in use, and no other
handler writes SP or the stack. -/
theorem exec_keeps_stackBounded {ins : Instr} {s t : State} (hpc : s.pc.toNat ≤ 4096) (hs : StackBounded s)
    (h : exec ins s = .next t) : StackBounded t := by
  obtain ⟨hsp, hentries⟩ := hs
  refine ⟨exec_sp_le hsp h, ?_⟩
  cases ins with
  | ret =>
    obtain ⟨hne, -, rfl⟩ := execRet_eq_next.1 h
    intro j (hj : j.val < (s.sp - 1).toNat)
    have hsp := sp_sub_one_toNat hne
    exact hentries j (by omega)
  | call =>
    obtain ⟨hlt, rfl⟩ := execCall_eq_next.1 h
    intro j (hj : j.val < (s.sp + 1).toNat)
    rw [sp_add_one_toNat hlt] at hj
    exact stackEntry_set_le hlt hpc fun hne => hentries j (by omega)
  | _ =>
    intro j hj
    rw [(exec_frame h).sp (by simp [writtenParts])] at hj
    rw [(exec_frame h).stack (by simp [writtenParts])]
    exact hentries j hj

/-! ### pc after a handler (spec/10_state.md R19) -/

theorem zext16_addr_le (nnn : Addr) : (zext16 nnn).toNat ≤ 0xFFF := by
  rw [zext16_toNat (by decide)]
  exact Nat.le_of_lt_succ nnn.isLt

/-- BNNN's target is at most 0xFF + 0xFFF. -/
theorem jumpOffset_le (b : Byte) (nnn : Addr) : (zext16 b + zext16 nnn).toNat ≤ 0x10FE := by
  have hb : (zext16 b).toNat ≤ 0xFF := by
    rw [zext16_toNat (by decide)]
    exact Nat.le_of_lt_succ b.isLt
  have hnnn := zext16_addr_le nnn
  bv_omega

theorem State.skipIf_pc_le {s : State} (hpc : s.pc.toNat ≤ 4096) (c : Bool) : (s.skipIf c).pc.toNat ≤ 4098 := by
  rw [State.skipIf_eq, State.setPc_pc]
  split
  · bv_omega
  · omega

theorem skipOnKey_pc_le {ins : Instr} {b : Byte} {c : Key → Bool} {s t : State} (hpc : s.pc.toNat ≤ 4096)
    (h : orOutOfBounds ins s ((keyOf b).map fun k => s.skipIf (c k)) = .next t) : t.pc.toNat ≤ 4098 := by
  obtain ⟨d, rfl⟩ := skipOnKey_eq_next h
  exact State.skipIf_pc_le hpc d

/-- FX0A's rewind does not wrap once pc has been advanced. -/
theorem execLdVxK_pc_le {x : Reg} {s t : State} (hlow : 2 ≤ s.pc.toNat) (h : execLdVxK x s = .next t) :
    t.pc.toNat ≤ s.pc.toNat := by
  obtain ⟨b, rfl⟩ | rfl := execLdVxK_eq_next h
  · exact Nat.le_refl _
  · rw [State.setPc_pc]
    bv_omega

/-- 00EE returns to an entry in use. -/
theorem execRet_pc_le {s t : State} (hs : StackBounded s) (h : execRet s = .next t) : t.pc.toNat ≤ 4096 := by
  obtain ⟨hne, hlt, rfl⟩ := execRet_eq_next.1 h
  obtain ⟨-, hentries⟩ := hs
  have hsp := sp_sub_one_toNat hne
  exact hentries ⟨(s.sp - 1).toNat, hlt⟩ (Nat.lt_of_succ_le hsp.le)

/-- Every handler leaves pc at most 0x10FE, when it starts after an advance that did not wrap. The bound is BNNN's. -/
theorem exec_pc_le {ins : Instr} {s t : State} (hlow : 2 ≤ s.pc.toNat) (hpc : s.pc.toNat ≤ 4096)
    (hs : StackBounded s) (h : exec ins s = .next t) : t.pc.toNat ≤ 0x10FE := by
  cases ins with
  | jp nnn => exact (pc_le_of_next h (zext16_addr_le nnn)).trans (by decide)
  | call nnn =>
    obtain ⟨-, rfl⟩ := execCall_eq_next.1 h
    exact (zext16_addr_le nnn).trans (by decide)
  | ret => exact (execRet_pc_le hs h).trans (by decide)
  | jpV0 nnn => exact pc_le_of_next h (jumpOffset_le (s.reg 0) nnn)
  | seByte | sneByte | seReg | sneReg => exact (pc_le_of_next h (State.skipIf_pc_le hpc _)).trans (by decide)
  | skp | sknp => exact (skipOnKey_pc_le hpc h).trans (by decide)
  | ldVxK => exact (execLdVxK_pc_le hlow h).trans (hpc.trans (by decide))
  | _ =>
    rw [(exec_frame h).pc (by simp [writtenParts])]
    exact hpc.trans (by decide)

end Sys2Proof.Machine
end

section
/-! The invariants of spec/10_state.md R19, R20 and R31: they hold at reset, each host operation keeps them, and so
every step keeps them and every reachable state has them. -/

namespace Sys2Proof.Machine

/-! ### RESET (spec/10_state.md R30, spec/70_reset_and_hazards.md R145, R146) -/

/-- Every cell at reset: FONT in 0x050 to 0x09F, zero elsewhere. -/
theorem State.load_resetMachine (s : State) {a : Nat} (ha : a < 4096) :
    s.resetMachine.load a = some (if 0x50 ≤ a ∧ a < 0xA0 then Config.font (a - 0x50) else 0) := by
  rw [State.load_some (show a < Config.memSize from ha)]
  rfl

@[simp] theorem State.reg_resetMachine (s : State) (r : Reg) : s.resetMachine.reg r = 0 := by
  simp [State.reg, State.reset]

@[simp] theorem State.stack_resetMachine (s : State) (j : Fin 16) : s.resetMachine.stack[j] = 0 := by
  simp [State.reset]

@[simp] theorem State.pixel_resetMachine (s : State) (y : Fin 32) (x : Fin 64) : s.resetMachine.pixel y x = false := by
  simp [State.pixel, State.reset]

@[simp] theorem State.keyPressed_resetMachine (s : State) (k : Key) : s.resetMachine.keyPressed k = false := by
  simp [State.keyPressed, State.reset]

/-- Settles O57: RESET's next state is `State.resetMachine`, read part by part. -/
theorem resetValues : Obligations.ResetValues := fun s =>
  ⟨s.resetMachine, rfl, fun _ ha => s.load_resetMachine ha, s.reg_resetMachine, rfl, rfl, rfl, s.stack_resetMachine,
    rfl, rfl, s.pixel_resetMachine, s.keyPressed_resetMachine, rfl, rfl⟩

theorem inv_reset : Inv State.reset := ⟨Memory.wf_reset, Nat.zero_le _⟩

theorem pcBounded_reset : PcBounded State.reset :=
  ⟨by decide, Nat.zero_le _, fun j hj => absurd hj (Nat.not_lt_zero j.val)⟩

/-- Settles O23: reset memory lists nothing, and the stack is empty. -/
theorem resetMeetsInvariants : Obligations.ResetMeetsInvariants := ⟨inv_reset, pcBounded_reset⟩

/-! ### SP and memory (R20, R31) -/

/-- Everything LOAD can do when it completes (spec/60_exceptions.md R136). -/
theorem loadProgram_eq_next {bytes : List Byte} {s t : State} :
    loadProgram bytes s = .next t ↔
      bytes.length ≤ Config.maxRom ∧ t = { s with mem := Memory.putBytes Config.progBase bytes s.mem } := by
  rw [loadProgram_eq]
  split <;> simp_all [eq_comm]

/-- LOAD's length check keeps the program inside the cells. -/
theorem loadProgram_memory {bytes : List Byte} {s t : State} (h : loadProgram bytes s = .next t) :
    MemoryCopiedInto s t := by
  obtain ⟨hfit, rfl⟩ := loadProgram_eq_next.1 h
  refine .inr ⟨Config.progBase, bytes, ?_, rfl⟩
  unfold Config.maxRom at hfit
  unfold Config.progBase Config.memSize
  omega

theorem cycle_keeps_inv {r : Option Byte} {s t : State} (hs : Inv s) (h : cycle r s = .next t) : Inv t := by
  obtain ⟨hmem, hsp⟩ := hs
  obtain ⟨-, w, ins, -, -, hexec⟩ := cycle_eq_next h
  exact ⟨(exec_memory hexec).wf hmem, exec_sp_le (s := s.beginCycle r) hsp hexec⟩

theorem perform_keeps_inv {op : HostOp} {s t : State} (hs : Inv s) (h : perform op s = .next t) : Inv t := by
  cases op with
  | reset => exact holds_of_next h inv_reset
  | cycle => exact cycle_keeps_inv hs h
  | tick | keySet => exact holds_of_next h hs
  | load =>
    obtain ⟨hmem, hsp⟩ := hs
    obtain ⟨-, ht⟩ := loadProgram_eq_next.1 h
    exact ⟨(loadProgram_memory h).wf hmem, by rw [ht]; exact hsp⟩

/-- Settles O22: a step is a cycle or a listed operation, and each keeps the invariant, which reads neither the draw
counter nor the host's list. -/
theorem stepKeepsInv : Obligations.StepKeepsInv := by
  intro s t hs h
  obtain ⟨-, hcycle⟩ | ⟨op, rest, -, hperform⟩ := step_eq_next h
  · exact cycle_keeps_inv (s := s.nextDraw) hs hcycle
  · exact perform_keeps_inv (s := { s with hostOps := rest }) hs hperform

theorem reachable_inv {s : State} (h : Reachable s) : Inv s := by
  induction h with
  | construct => exact inv_reset
  | operate op _ ht ih => exact perform_keeps_inv ih ht

/-- An address reads as a byte exactly when it is a cell (spec/20_memory.md R34, R40). -/
theorem State.load_isSome_iff (s : State) (a : Nat) : (∃ b, s.load a = some b) ↔ a ≤ 4095 := by
  rw [State.load_eq]
  unfold Config.memSize
  split
  · simp; omega
  · simp; omega

/-- Settles O24: the invariant of every reachable state bounds SP, and the checked read gives the cells. -/
theorem reachableStatesAreLegal : Obligations.ReachableStatesAreLegal := by
  intro s h
  obtain ⟨-, hsp⟩ := reachable_inv h
  exact ⟨hsp, s.load_isSome_iff⟩

/-! ### pc and the stack entries in use (R19) -/

/-- A cycle that completes has fetched from 0x200 to 4094, so its handler starts with pc from 0x202 to 4096. -/
theorem cycle_keeps_pcBounded {r : Option Byte} {s t : State} (hs : PcBounded s) (h : cycle r s = .next t) :
    PcBounded t := by
  obtain ⟨-, hstack⟩ := pcBounded_iff.1 hs
  obtain ⟨⟨hlow, hhigh⟩, w, ins, -, -, hexec⟩ := cycle_eq_next h
  unfold Config.progBase at hlow
  unfold Config.memSize at hhigh
  have hpc : (s.beginCycle r).pc.toNat = s.pc.toNat + 2 := by
    rw [State.beginCycle_pc]
    bv_omega
  have hstack' : StackBounded (s.beginCycle r) := hstack
  exact pcBounded_iff.2
    ⟨exec_pc_le (by omega) (by omega) hstack' hexec, exec_keeps_stackBounded (by omega) hstack' hexec⟩

theorem perform_keeps_pcBounded {op : HostOp} {s t : State} (hs : PcBounded s) (h : perform op s = .next t) :
    PcBounded t := by
  cases op with
  | reset => exact holds_of_next h pcBounded_reset
  | cycle => exact cycle_keeps_pcBounded hs h
  | tick | keySet => exact holds_of_next h hs
  | load =>
    obtain ⟨-, rfl⟩ := loadProgram_eq_next.1 h
    exact hs

theorem step_keeps_pcBounded {s t : State} (hs : PcBounded s) (h : step s = .next t) : PcBounded t := by
  obtain ⟨-, hcycle⟩ | ⟨op, rest, -, hperform⟩ := step_eq_next h
  · exact cycle_keeps_pcBounded (s := s.nextDraw) hs hcycle
  · exact perform_keeps_pcBounded (s := { s with hostOps := rest }) hs hperform

/-- After a fetch that answers, neither the advance nor a taken skip wraps: pc is at most 4094. -/
theorem advance_does_not_wrap {s : State} (h : s.fetchWord ≠ none) :
    (s.pc + 2).toNat = s.pc.toNat + 2 ∧ (s.pc + 4).toNat = s.pc.toNat + 4 := by
  obtain ⟨-, hhigh⟩ := Decidable.not_not.1 (mt State.fetchWord_eq_none.2 h)
  unfold Config.memSize at hhigh
  constructor <;> bv_omega

/-- Settles O25: every operation keeps the bounds of R19, and the fetch range keeps the advance from wrapping. -/
theorem stepKeepsPcBounded : Obligations.StepKeepsPcBounded :=
  ⟨fun _ _ => step_keeps_pcBounded, fun _ => advance_does_not_wrap⟩

end Sys2Proof.Machine
end

section
/-! Memory across an instruction (spec/20_memory.md R37, R41, R50): what every address reads after a run of stores, the frame
this leaves, and a store into the word that is fetched next. -/

namespace Sys2Proof.Machine

/-! ### A run of stores (R41) -/

/-- What every address reads after a run of stores that completed: the bytes stored, and all others as before. -/
theorem storeBytes_load {ins : Instr} {k : Nat} {bytes : List Byte} {s t : State}
    (h : orOutOfBounds ins s (storeFrom k bytes s) = .next t) (a : Nat) :
    t.load a = if s.effAddr k ≤ a ∧ a < s.effAddr k + bytes.length then bytes[a - s.effAddr k]? else s.load a := by
  obtain ⟨hfit, rfl⟩ := storeFrom_eq_some.1 (orOutOfBounds_eq_next.1 h)
  have hcell : s.effAddr k ≤ a → a < s.effAddr k + bytes.length → a < Config.memSize := by
    intro hfrom hto
    obtain rfl | hfit := hfit
    · exact absurd (hfrom.trans_lt hto) (lt_irrefl _)
    · exact hto.trans_le hfit
  rw [State.load_putBytes]
  exact if_congr ⟨fun ⟨hfrom, hto, _⟩ => ⟨hfrom, hto⟩, fun ⟨hfrom, hto⟩ => ⟨hfrom, hto, hcell hfrom hto⟩⟩ rfl rfl

/-- An instruction whose handler stores its bytes from I on leaves every other address as it was. -/
theorem storeBytes_load_of_not_storedAt {ins : Instr} {bytes : List Byte} {s t : State} {a : Nat}
    (h : orOutOfBounds ins s (storeFrom 0 bytes s) = .next t) (hlen : bytes.length = storedBytes ins)
    (ha : ¬ StoredAt ins s a) : t.load a = s.load a := by
  rw [storeBytes_load h, hlen]
  exact if_neg ha

/-- FX55 (spec/43_index_memory.md R109): the cell at I + r reads as V[r] after it. -/
theorem execLdMemVx_load {x r : Reg} {s t : State} (h : execLdMemVx x s = .next t) (hr : r ≤ x) :
    t.load (s.effAddr r.val) = some (s.reg r) := by
  have hoffset : s.effAddr r.val = s.effAddr 0 + r.val := rfl
  have hstored : r.val < x.val + 1 := Nat.lt_succ_of_le hr
  rw [storeBytes_load h, List.length_map, regsUpTo_length, hoffset, if_pos ⟨by omega, by omega⟩,
    Nat.add_sub_cancel_left, List.getElem?_map, regsUpTo_getElem? hr, Option.map_some]

/-! ### The memory frame (R37) -/

theorem SameOutside.load {parts : List Part} {s t : State} (h : SameOutside parts s t) (hp : Part.mem ∉ parts)
    (a : Nat) : t.load a = s.load a := by
  obtain ⟨-, -, -, -, -, -, -, -, hmem, -⟩ := h
  exact hmem hp a

/-- Settles O20: FX33 and FX55 store as many bytes as `storedBytes` says, and no other instruction lists memory among the
parts it writes. -/
theorem memoryFrame : Obligations.MemoryFrame := by
  intro ins s t a h ha
  cases ins with
  | ldBVx => exact storeBytes_load_of_not_storedAt h rfl ha
  | ldMemVx x => exact storeBytes_load_of_not_storedAt h (by simp [regsUpTo_length, storedBytes]) ha
  | _ => exact (exec_frame h).load (by simp [writtenParts]) a

/-! ### A store into the next word (R50, spec/70_reset_and_hazards.md R152) -/

/-- The fetch gives the word of the two bytes that the checked reads at pc give (spec/40_cycle.md R69). -/
theorem State.fetchWord_of_load {s : State} {hi lo : Byte} (hpc : FetchLegal s.pc) (hhi : s.load s.pc.toNat = some hi)
    (hlo : s.load (s.pc.toNat + 1) = some lo) : s.fetchWord = some (wordOfBytes hi lo) := by
  simp only [State.fetchWord, if_pos hpc, hhi, hlo]

/-- Settles O47: FX55 leaves pc alone, and the cells at pc and pc + 1 are those of V[0] and V[1]. -/
theorem storeChangesNextInstruction : Obligations.StoreChangesNextInstruction := by
  intro x s t hx hindex hlow hhigh h
  have hpc : t.pc = s.pc := (exec_frame h).pc (by simp [writtenParts])
  have hI : s.index.toNat = t.pc.toNat := by rw [hindex, hpc]
  have hlegal : FetchLegal t.pc := by
    rw [hpc]
    exact ⟨hlow, Nat.lt_succ_of_le (Nat.succ_le_succ hhigh)⟩
  have h0 : t.load t.pc.toNat = some (s.reg 0) := hI ▸ execLdMemVx_load h (Fin.zero_le x)
  have h1 : t.load (t.pc.toNat + 1) = some (s.reg 1) := hI ▸ execLdMemVx_load h (r := 1) hx
  exact State.fetchWord_of_load hlegal h0 h1

end Sys2Proof.Machine
end

section
/-! Decode and encode are inverse (spec/30_encoding.md R53 to R60, R66), and the words that decode are those of the opcode
table (R60) and not those of the table of unknown words (R61). -/

namespace Sys2Proof

/-! ### Decode after encode (R53, R57) -/

theorem decode_encode (ins : Instr) : decode (encode ins) = some ins := by
  cases ins with
  | cls | ret => decide
  | jp | call | ldI | jpV0 | seByte | sneByte | ldByte | addByte | rnd | drw => simp [encode, decode]
  | seReg | sneReg => simp [encode, decode, whenLowDigitZero]
  | ldReg | orReg | andReg | xorReg | addReg | subReg | shrReg | subnReg | shlReg =>
    simp [encode, decode, decodeFamily8]
  | skp | sknp => simp [encode, decode, decodeFamilyE]
  | ldVxDt | ldVxK | ldDtVx | ldStVx | addIVx | ldFVx | ldBVx | ldMemVx | ldVxMem =>
    simp [encode, decode, decodeFamilyF]

theorem decodeBytes_encodeBytes (ins : Instr) (rest : List Byte) :
    decodeBytes (encodeBytes ins ++ rest) = .ok (ins, rest) := by
  simp [encodeBytes, decodeBytes, decode_encode]

/-- Settles O1: each field of a format reads back the operand put there, so each constructor's word dispatches to it. -/
theorem decodeOfEncode : Obligations.DecodeOfEncode := ⟨decode_encode, decodeBytes_encodeBytes⟩

/-! ### Encode after decode (R60) -/

theorem formatNNN_of_fields {w : Word} {op : BitVec 4} (hop : fieldOp w = op) : formatNNN op (fieldNNN w) = w :=
  hop ▸ formatNNN_fields w

theorem formatXKK_of_fields {w : Word} {op : BitVec 4} {kk : Byte} (hop : fieldOp w = op) (hkk : fieldKK w = kk) :
    formatXKK op (fieldX w) kk = w :=
  hop ▸ hkk ▸ formatXKK_fields w

theorem formatXYN_of_fields {w : Word} {op n : BitVec 4} (hop : fieldOp w = op) (hn : fieldN w = n) :
    formatXYN op (fieldX w) (fieldY w) n = w :=
  hop ▸ hn ▸ formatXYN_fields w

theorem encode_of_some {i ins : Instr} {w : Word} (h : some i = some ins) (hw : encode i = w) : encode ins = w :=
  Option.some.inj h ▸ hw

theorem encode_of_decodeFamily0 {w : Word} {ins : Instr} (h : decodeFamily0 w = some ins) : encode ins = w := by
  unfold decodeFamily0 at h
  split_ifs at h with hcls hret
  · exact encode_of_some h hcls.symm
  · exact encode_of_some h hret.symm

theorem encode_of_whenLowDigitZero {w : Word} {i ins : Instr} (h : whenLowDigitZero w i = some ins)
    (hw : fieldN w = 0 → encode i = w) : encode ins = w := by
  unfold whenLowDigitZero at h
  split_ifs at h with hn
  exact encode_of_some h (hw hn)

theorem encode_of_decodeFamily8 {w : Word} {ins : Instr} (hop : fieldOp w = 0x8) (h : decodeFamily8 w = some ins) :
    encode ins = w := by
  unfold decodeFamily8 at h
  split at h
  case h_10 => cases h
  all_goals
    rename_i hn
    exact encode_of_some h (formatXYN_of_fields hop hn)

theorem encode_of_decodeFamilyE {w : Word} {ins : Instr} (hop : fieldOp w = 0xE) (h : decodeFamilyE w = some ins) :
    encode ins = w := by
  unfold decodeFamilyE at h
  split at h
  case h_3 => cases h
  all_goals
    rename_i hkk
    exact encode_of_some h (formatXKK_of_fields hop hkk)

theorem encode_of_decodeFamilyF {w : Word} {ins : Instr} (hop : fieldOp w = 0xF) (h : decodeFamilyF w = some ins) :
    encode ins = w := by
  unfold decodeFamilyF at h
  split at h
  case h_10 => cases h
  all_goals
    rename_i hkk
    exact encode_of_some h (formatXKK_of_fields hop hkk)

/-- The last arm of `decode` is family 0xF (R58): the other fifteen arms leave no other. -/
theorem eq_0xF_of_not_mem {op : BitVec 4}
    (h : op ∉ ([0x0, 0x1, 0x2, 0x3, 0x4, 0x5, 0x6, 0x7, 0x8, 0x9, 0xA, 0xB, 0xC, 0xD, 0xE] : List (BitVec 4))) :
    op = 0xF := by
  revert op; decide

/-- Each arm of the dispatch on OP gives an instruction of the arm's own format, which puts the word's fields together
again. -/
theorem encode_of_decode {w : Word} {ins : Instr} (h : decode w = some ins) : encode ins = w := by
  unfold decode at h
  split at h
  case h_1 => exact encode_of_decodeFamily0 h
  case h_2 hop | h_3 hop | h_11 hop | h_12 hop => exact encode_of_some h (formatNNN_of_fields hop)
  case h_4 hop | h_5 hop | h_7 hop | h_8 hop | h_13 hop => exact encode_of_some h (formatXKK_of_fields hop rfl)
  case h_6 hop | h_10 hop => exact encode_of_whenLowDigitZero h (formatXYN_of_fields hop)
  case h_9 hop => exact encode_of_decodeFamily8 hop h
  case h_14 hop => exact encode_of_some h (formatXYN_of_fields hop rfl)
  case h_15 hop => exact encode_of_decodeFamilyE hop h
  case h_16 => exact encode_of_decodeFamilyF (eq_0xF_of_not_mem (by simp_all)) h

/-- The words that decode to an instruction: its encoding alone. -/
theorem decode_eq_some_iff {w : Word} {ins : Instr} : decode w = some ins ↔ encode ins = w :=
  ⟨encode_of_decode, fun h => h ▸ decode_encode ins⟩

/-- Settles O2: by the arms of the dispatch, in `encode_of_decode`. -/
theorem encodeOfDecode : Obligations.EncodeOfDecode := fun _ _ => decode_eq_some_iff.1

/-! ### The words that each family leaves unknown (R61) -/

theorem fieldOp_toNat (w : Word) : (fieldOp w).toNat = w.toNat / 4096 := by
  have h := w.isLt
  rw [fieldOp, BitVec.extractLsb'_toNat, Nat.shiftRight_eq_div_pow]
  omega

theorem fieldN_toNat (w : Word) : (fieldN w).toNat = w.toNat % 16 := BitVec.extractLsb'_toNat ..

theorem fieldKK_toNat (w : Word) : (fieldKK w).toNat = w.toNat % 256 := BitVec.extractLsb'_toNat ..

theorem decodeFamily0_eq_none {w : Word} : decodeFamily0 w = none ↔ (w != 0x00E0 && w != 0x00EE) = true := by
  unfold decodeFamily0
  split_ifs with hcls hret
  · simp [hcls]
  · simp [hret]
  · simpa using ⟨hcls, hret⟩

theorem whenLowDigitZero_eq_none {w : Word} {ins : Instr} :
    whenLowDigitZero w ins = none ↔ ((fieldN w).toNat != 0) = true := by
  unfold whenLowDigitZero
  split_ifs with hn
  · simp [hn]
  · simpa [BitVec.toNat_eq] using hn

theorem contains_of_not_mem_aluDigits {n : Nibble}
    (h : n ∉ ([0x0, 0x1, 0x2, 0x3, 0x4, 0x5, 0x6, 0x7, 0xE] : List Nibble)) :
    [0x8, 0x9, 0xA, 0xB, 0xC, 0xD, 0xF].contains n.toNat = true := by
  revert n; decide

theorem decodeFamily8_eq_none {w : Word} :
    decodeFamily8 w = none ↔ [0x8, 0x9, 0xA, 0xB, 0xC, 0xD, 0xF].contains (fieldN w).toNat = true := by
  unfold decodeFamily8
  split
  case h_10 => simpa using contains_of_not_mem_aluDigits (by simp_all)
  all_goals
    rename_i hn
    simp [hn]

theorem decodeFamilyE_eq_none {w : Word} :
    decodeFamilyE w = none ↔ (!([0x9E, 0xA1].contains (fieldKK w).toNat)) = true := by
  unfold decodeFamilyE
  split
  case h_3 => simp_all [BitVec.toNat_eq]
  all_goals
    rename_i hkk
    simp [hkk]

theorem decodeFamilyF_eq_none {w : Word} :
    decodeFamilyF w = none ↔
      (!([0x07, 0x0A, 0x15, 0x18, 0x1E, 0x29, 0x33, 0x55, 0x65].contains (fieldKK w).toNat)) = true := by
  unfold decodeFamilyF
  split
  case h_10 => simp_all [BitVec.toNat_eq]
  all_goals
    rename_i hkk
    simp [hkk]

/-- Settles O4: the table is read by the word's own digits, and family by family it says what the family's decoder
refuses. The families with no literal digit refuse nothing. -/
theorem unknownWordsByFamily : Obligations.UnknownWordsByFamily := by
  intro w
  unfold decode Machine.unknownWord
  rw [← fieldOp_toNat, ← fieldN_toNat, ← fieldKK_toNat]
  split
  case h_1 hop => rw [hop]; exact decodeFamily0_eq_none
  case h_6 hop | h_10 hop => rw [hop]; exact whenLowDigitZero_eq_none
  case h_9 hop => rw [hop]; exact decodeFamily8_eq_none
  case h_15 hop => rw [hop]; exact decodeFamilyE_eq_none
  case h_16 =>
    have hop : fieldOp w = 0xF := eq_0xF_of_not_mem (by simp_all)
    rw [hop]; exact decodeFamilyF_eq_none
  all_goals
    rename_i hop
    rw [hop]
    simp

/-! ### The words of the opcode table (R60, spec/opcode_table.json) -/

theorem fieldOp_and (w m : Word) : fieldOp (w &&& m) = fieldOp w &&& fieldOp m := BitVec.extractLsb'_and ..

theorem fieldN_and (w m : Word) : fieldN (w &&& m) = fieldN w &&& fieldN m := BitVec.extractLsb'_and ..

theorem fieldKK_and (w m : Word) : fieldKK (w &&& m) = fieldKK w &&& fieldKK m := BitVec.extractLsb'_and ..

theorem fieldN_and_eq_self {w m : Word} (h : fieldN m = BitVec.allOnes 4) : fieldN (w &&& m) = fieldN w := by
  rw [fieldN_and, h, BitVec.and_allOnes]

theorem fieldKK_and_eq_self {w m : Word} (h : fieldKK m = BitVec.allOnes 8) : fieldKK (w &&& m) = fieldKK w := by
  rw [fieldKK_and, h, BitVec.and_allOnes]

/-- The bits that are literal digits in a family's words (R60): those that decide whether a word of it decodes. -/
def literalMask (op : BitVec 4) : Word :=
  match op with
  | 0x0 => 0xFFFF
  | 0x5 | 0x8 | 0x9 => 0xF00F
  | 0xE | 0xF => 0xF0FF
  | _ => 0xF000

theorem fieldOp_literalMask (op : BitVec 4) : fieldOp (literalMask op) = BitVec.allOnes 4 := by
  revert op; decide

theorem fieldOp_and_literalMask (w : Word) (op : BitVec 4) : fieldOp (w &&& literalMask op) = fieldOp w := by
  rw [fieldOp_and, fieldOp_literalMask, BitVec.and_allOnes]

theorem opcodeTable_mask : ∀ row ∈ opcodeTable, row.mask = literalMask (fieldOp row.pattern) := by decide

theorem opcodeTable_pattern_decodes : ∀ row ∈ opcodeTable, decode row.pattern ≠ none := by decide

/-- Operand digits do not decide whether a word decodes: with all of them cleared it still does, or still does not. -/
theorem decode_and_literalMask_eq_none (w : Word) :
    decode (w &&& literalMask (fieldOp w)) = none ↔ decode w = none := by
  unfold decode
  rw [fieldOp_and_literalMask]
  split
  case h_1 hop =>
    have hself : w &&& literalMask (fieldOp w) = w := hop ▸ BitVec.and_allOnes
    rw [hself]
  case h_6 hop | h_10 hop =>
    rw [whenLowDigitZero_eq_none, whenLowDigitZero_eq_none, fieldN_and_eq_self (by rw [hop]; rfl)]
  case h_9 hop =>
    rw [decodeFamily8_eq_none, decodeFamily8_eq_none, fieldN_and_eq_self (by rw [hop]; rfl)]
  case h_15 hop =>
    rw [decodeFamilyE_eq_none, decodeFamilyE_eq_none, fieldKK_and_eq_self (by rw [hop]; rfl)]
  case h_16 =>
    have hop : fieldOp w = 0xF := eq_0xF_of_not_mem (by simp_all)
    rw [decodeFamilyF_eq_none, decodeFamilyF_eq_none, fieldKK_and_eq_self (by rw [hop]; rfl)]
  all_goals simp

/-- A word's literal digits under a row's mask are the row's pattern, and the pattern decodes. -/
theorem decode_ne_none_of_matchesWord {row : OpcodeRow} {w : Word} (hrow : row ∈ opcodeTable)
    (h : row.matchesWord w = true) : decode w ≠ none := by
  have hmasked : w &&& literalMask (fieldOp row.pattern) = row.pattern := by
    rw [← opcodeTable_mask row hrow]
    exact eq_of_beq h
  have hop : fieldOp row.pattern = fieldOp w := by
    rw [← fieldOp_and_literalMask w (fieldOp row.pattern), hmasked]
  rw [hop] at hmasked
  exact fun hnone => opcodeTable_pattern_decodes row hrow (hmasked ▸ (decode_and_literalMask_eq_none w).2 hnone)

open Laws.RowMatch in
/-- The row of each instruction, from the laws of its constructor. -/
theorem rowMatch (ins : Instr) : Laws.RowMatch.Statement ins := by
  cases ins
  exacts [cls, ret, jp _, call _, seByte _ _, sneByte _ _, seReg _ _, ldByte _ _, addByte _ _, ldReg _ _, orReg _ _,
    andReg _ _, xorReg _ _, addReg _ _, subReg _ _, shrReg _ _, subnReg _ _, shlReg _ _, sneReg _ _, ldI _, jpV0 _,
    rnd _ _, drw _ _ _, skp _, sknp _, ldVxDt _, ldVxK _, ldDtVx _, ldStVx _, addIVx _, ldFVx _, ldBVx _, ldMemVx _,
    ldVxMem _]

theorem exists_row_of_decode {w : Word} {ins : Instr} (h : decode w = some ins) :
    ∃ row ∈ opcodeTable, row.matchesWord w = true ∧ row.mnemonic = ins.mnemonic := by
  obtain ⟨row, hrow, hmnemonic, hword⟩ := rowMatch ins
  exact ⟨row, hrow, decode_eq_some_iff.1 h ▸ hword, hmnemonic⟩

theorem decode_isSome_iff_wordWellFormed (w : Word) : (decode w).isSome = true ↔ wordWellFormed w = true := by
  unfold wordWellFormed
  rw [List.any_eq_true]
  constructor
  · intro h
    obtain ⟨ins, hins⟩ := Option.isSome_iff_exists.1 h
    obtain ⟨row, hrow, hword, -⟩ := exists_row_of_decode hins
    exact ⟨row, hrow, hword⟩
  · rintro ⟨row, hrow, hword⟩
    exact Option.isSome_iff_ne_none.2 (decode_ne_none_of_matchesWord hrow hword)

/-- Settles O3: a word that decodes is an encoding, which matches its instruction's row; a word that matches a row decodes
because the row's pattern does. -/
theorem decodeFollowsOpcodeTable : Obligations.DecodeFollowsOpcodeTable :=
  ⟨fun w => Bool.eq_iff_iff.2 (decode_isSome_iff_wordWellFormed w), fun _ _ => exists_row_of_decode⟩

/-- Settles O5: the thirteen words, decoded. -/
theorem sampleWordsDecode : Obligations.SampleWordsDecode := by
  unfold Obligations.SampleWordsDecode
  decide

end Sys2Proof

/-! ### The fetched word (R54) -/

namespace Sys2Proof.Machine

/-- Settles O7: a legal fetch reads the two cells at pc, and `wordOfBytes_toNat` gives the value of their word. -/
theorem fetchIsBigEndian : Obligations.FetchIsBigEndian := by
  intro s hlow hhigh
  have hcell : s.pc.toNat + 1 < Config.memSize := Nat.lt_succ_of_le (Nat.succ_le_succ hhigh)
  exact ⟨_, _, _, State.load_some (Nat.lt_of_succ_lt hcell), State.load_some hcell, State.fetchWord_legal ⟨hlow, hcell⟩,
    wordOfBytes_toNat _ _⟩

end Sys2Proof.Machine
end

section
/-! The cycle's input byte (spec/40_cycle.md R74): changing it and the draw counter before an operation that does not read
them is changing them after it, and every handler but CXKK's is such an operation. -/

namespace Sys2Proof.Machine

/-- The state with another input byte and draw counter. -/
def State.withInput (r : Option Byte) (d : Nat) (s : State) : State := { s with rnd := r, draws := d }

/-! ### Operations that ignore the input -/

/-- Changing the input before `f` changes only the input of its next state, and not whether it has one. -/
def IgnoresInput (f : State → Option State) : Prop :=
  ∀ (r : Option Byte) (d : Nat) (s : State), f (s.withInput r d) = (f s).map (State.withInput r d)

theorem IgnoresInput.bind {f g : State → Option State} (hf : IgnoresInput f) (hg : IgnoresInput g) :
    IgnoresInput fun s => (f s).bind g := by
  intro r d s
  show (f (s.withInput r d)).bind g = ((f s).bind g).map (State.withInput r d)
  rw [hf r d s]
  cases f s with
  | none => rfl
  | some t => exact hg r d t

/-- A read that does not depend on the input may come first. -/
theorem IgnoresInput.read {α : Type} {read : State → Option α} {g : α → State → Option State}
    (hread : ∀ r d s, read (s.withInput r d) = read s) (hg : ∀ a, IgnoresInput (g a)) :
    IgnoresInput fun s => (read s).bind fun a => g a s := by
  intro r d s
  show (read (s.withInput r d)).bind _ = ((read s).bind _).map (State.withInput r d)
  rw [hread r d s]
  cases read s with
  | none => rfl
  | some a => exact hg a r d s

/-- A change that commutes with a change of the input may come first. -/
theorem IgnoresInput.after {f : State → Option State} {g : State → State} (hf : IgnoresInput f)
    (hg : ∀ r d s, g (s.withInput r d) = (g s).withInput r d) : IgnoresInput fun s => f (g s) := by
  intro r d s
  show f (g (s.withInput r d)) = (f (g s)).map (State.withInput r d)
  rw [hg r d s]
  exact hf r d (g s)

theorem State.skipIf_withInput (c : Bool) (r : Option Byte) (d : Nat) (s : State) :
    (s.withInput r d).skipIf c = (s.skipIf c).withInput r d := by
  cases c <;> rfl

theorem storeFrom_ignoresInput (k : Nat) (bytes : List Byte) : IgnoresInput (storeFrom k bytes) := by
  intro r d s
  rw [storeFrom_eq, storeFrom_eq, apply_ite (Option.map (State.withInput r d))]
  rfl

theorem loadRegs_ignoresInput (rs : List Reg) : IgnoresInput (loadRegs rs) := by
  induction rs with
  | nil => exact fun _ _ _ => rfl
  | cons q rest ih => exact .read (fun _ _ _ => rfl) fun b => ih.after fun _ _ _ => rfl

theorem push_withInput (a : Word) (r : Option Byte) (d : Nat) (s : State) :
    (s.withInput r d).push a = (s.push a).map (State.withInput r d) := by
  unfold State.push
  rw [apply_dite (Option.map (State.withInput r d))]
  rfl

theorem pop_withInput (r : Option Byte) (d : Nat) (s : State) :
    (s.withInput r d).pop = s.pop.map (Prod.map id (State.withInput r d)) := by
  unfold State.pop
  rw [apply_dite (Option.map (Prod.map id (State.withInput r d)))]
  rfl

/-- 00EE's work once SP is not 0 (spec/41_flow.md R79). -/
theorem popThenJump_ignoresInput : IgnoresInput fun s => s.pop.map fun popped => popped.2.setPc popped.1 := by
  intro r d s
  show (s.withInput r d).pop.map _ = (s.pop.map _).map _
  rw [pop_withInput]
  cases s.pop <;> rfl

/-- 2NNN's work once SP is not 16 (R81). -/
theorem pushThenJump_ignoresInput (target : Word) :
    IgnoresInput fun s => (s.push s.pc).map fun t => t.setPc target := by
  intro r d s
  show ((s.withInput r d).push s.pc).map _ = ((s.push s.pc).map _).map _
  rw [push_withInput]
  cases s.push s.pc <;> rfl

theorem drawPixel_ignoresInput (x y : Nat) : IgnoresInput (drawPixel x y) := by
  intro r d s
  unfold drawPixel
  by_cases hon : x < 64 ∧ y < 32
  · have hpixel : (s.withInput r d).pixel ⟨y, hon.2⟩ ⟨x, hon.1⟩ = s.pixel ⟨y, hon.2⟩ ⟨x, hon.1⟩ := rfl
    rw [dif_pos hon, dif_pos hon, hpixel]
    cases s.pixel ⟨y, hon.2⟩ ⟨x, hon.1⟩ <;> rfl
  · rw [dif_neg hon, dif_neg hon]
    rfl

theorem drawColumns_ignoresInput (row : Byte) (x y : Nat) (cols : List Nat) :
    IgnoresInput (drawColumns row x y cols) := by
  induction cols with
  | nil => exact fun _ _ _ => rfl
  | cons col rest ih =>
    intro r d s
    rw [drawColumns, drawColumns]
    split
    · exact (drawPixel_ignoresInput (x + col) y).bind ih r d s
    · exact ih r d s

theorem drawRows_ignoresInput (x y : Nat) (rows : List Nat) : IgnoresInput (drawRows x y rows) := by
  induction rows with
  | nil => exact fun _ _ _ => rfl
  | cons row rest ih =>
    exact .read (fun _ _ _ => rfl) fun b => (drawColumns_ignoresInput b x (y + row) (List.range 8)).bind ih

theorem drawSprite_ignoresInput (x y n : Nat) : IgnoresInput (drawSprite x y n) :=
  (drawRows_ignoresInput x y (List.range n)).after fun _ _ _ => rfl

/-! ### Handlers -/

/-- Changing the input before the handler of `ins` changes only the input of its next state, and no fault. -/
def HandlerIgnoresInput (ins : Instr) : Prop :=
  ∀ (r : Option Byte) (d : Nat) (s : State), exec ins (s.withInput r d) = mapNext (State.withInput r d) (exec ins s)

theorem orOutOfBounds_withInput {f : State → Option State} (hf : IgnoresInput f) (ins : Instr) (r : Option Byte)
    (d : Nat) (s : State) : orOutOfBounds ins (s.withInput r d) (f (s.withInput r d)) =
      mapNext (State.withInput r d) (orOutOfBounds ins s (f s)) := by
  rw [hf r d s]
  cases f s <;> rfl

/-- A handler that always answers does not depend on the input when the state it answers does not. -/
theorem next_withInput {u u' : State} {r : Option Byte} {d : Nat} (h : u' = u.withInput r d) :
    (.next u' : Result) = mapNext (State.withInput r d) (.next u) :=
  congrArg Host.Outcome.next h

/-- EX9E and EXA1 (spec/45_keys_timers.md R117, R118): the key and the keypad do not depend on the input. -/
theorem skipOnKey_ignoresInput (x : Reg) (c : Bool → Bool) :
    IgnoresInput fun s => (keyOf (s.reg x)).map fun k => s.skipIf (c (s.keyPressed k)) := by
  intro r d s
  show (keyOf (s.reg x)).map _ = ((keyOf (s.reg x)).map _).map _
  rw [Option.map_map]
  exact congrArg (Option.map · (keyOf (s.reg x))) (funext fun k => s.skipIf_withInput _ r d)

/-- 00EE (spec/41_flow.md R79): the underflow check and the pop depend on SP and the stack alone. -/
theorem execRet_ignoresInput : HandlerIgnoresInput .ret := by
  intro r d s
  show execRet (s.withInput r d) = mapNext (State.withInput r d) (execRet s)
  have hsp : (s.withInput r d).sp = s.sp := rfl
  unfold execRet
  rw [hsp]
  split
  · rfl
  · exact orOutOfBounds_withInput popThenJump_ignoresInput .ret r d s

/-- 2NNN (R81): the overflow check and the push depend on SP, pc and the stack alone. -/
theorem execCall_ignoresInput (nnn : Addr) : HandlerIgnoresInput (.call nnn) := by
  intro r d s
  show execCall nnn (s.withInput r d) = mapNext (State.withInput r d) (execCall nnn s)
  have hsp : (s.withInput r d).sp = s.sp := rfl
  unfold execCall
  rw [hsp]
  split
  · rfl
  · exact orOutOfBounds_withInput (pushThenJump_ignoresInput _) (.call nnn) r d s

/-- FX0A (spec/45_keys_timers.md R120): the lowest pressed key does not depend on the input. -/
theorem execLdVxK_ignoresInput (x : Reg) : HandlerIgnoresInput (.ldVxK x) := by
  intro r d s
  show execLdVxK x (s.withInput r d) = mapNext (State.withInput r d) (execLdVxK x s)
  have hkey : (s.withInput r d).lowestKey = s.lowestKey := rfl
  unfold execLdVxK
  rw [hkey]
  cases s.lowestKey <;> rfl

/-- Every handler but CXKK's ignores the input. -/
theorem exec_ignoresInput {ins : Instr} (h : ins.mnemonic ≠ "CXKK") : HandlerIgnoresInput ins := by
  intro r d s
  cases ins with
  | rnd => exact absurd rfl h
  | cls | jp | jpV0 | ldByte | addByte | ldReg | orReg | andReg | xorReg | addReg | subReg | shrReg | subnReg | shlReg
  | ldI | addIVx | ldFVx | ldVxDt | ldDtVx | ldStVx =>
    rfl
  | seByte | sneByte | seReg | sneReg => exact next_withInput (s.skipIf_withInput _ r d)
  | skp x => exact orOutOfBounds_withInput (skipOnKey_ignoresInput x id) (.skp x) r d s
  | sknp x => exact orOutOfBounds_withInput (skipOnKey_ignoresInput x not) (.sknp x) r d s
  | ldBVx | ldMemVx => exact orOutOfBounds_withInput (storeFrom_ignoresInput 0 _) _ r d s
  | ldVxMem x => exact orOutOfBounds_withInput (loadRegs_ignoresInput (regsUpTo x)) _ r d s
  | drw => exact orOutOfBounds_withInput (drawSprite_ignoresInput _ _ _) _ r d s
  | ldVxK x => exact execLdVxK_ignoresInput x r d s
  | ret => exact execRet_ignoresInput r d s
  | call nnn => exact execCall_ignoresInput nnn r d s

/-- Settles O12: by the cases of `exec_ignoresInput`. -/
theorem onlyRandomReadsInput : Obligations.OnlyRandomReadsInput := fun _ s r d h => exec_ignoresInput h r d s

end Sys2Proof.Machine
end

section
/-! The cycle (spec/40_cycle.md R67 to R78): the range check of the fetch, the unknown word, the instruction that a step
runs, what a failed handler reports, and what a successful cycle does to pc, the timers and the keypad. -/

namespace Sys2Proof.Machine

/-! ### pc after a cycle (R75) -/

/-- A skip taken in the state after the advance passes over the next word. -/
theorem skipIf_beginCycle_pc (s : State) (r : Option Byte) (c : Bool) :
    ((s.beginCycle r).skipIf c).pc = if c then s.pc + 4 else s.pc + 2 := by
  rw [State.skipIf_eq, State.setPc_pc, State.beginCycle_pc, BitVec.add_assoc]
  rfl

theorem pc_of_next {p : Word} {u t : State} (h : (.next u : Result) = .next t) (hu : u.pc = p) : t.pc = p :=
  holds_of_next (P := fun v => v.pc = p) h hu

theorem keys_getElem?_eq_keyPressed (s : State) {b : Byte} {k : Key} (hk : b.toNat = k.val) :
    s.keys[b.toNat]? = some (s.keyPressed k) := by
  rw [hk]
  exact Vector.getElem?_eq_getElem k.isLt

/-- EX9E and EXA1 (spec/45_keys_timers.md R117, R118), which skip when key V[X] reads as `skipsOn`. -/
theorem skipOnKey_pc {ins : Instr} {b : Byte} {c : Bool → Bool} {skipsOn : Bool} {r : Option Byte} {s t : State}
    (hc : ∀ p, c p = (p == skipsOn))
    (h : orOutOfBounds ins (s.beginCycle r) ((keyOf b).map fun k => (s.beginCycle r).skipIf (c (s.keyPressed k))) =
      .next t) :
    t.pc = if s.keys[b.toNat]? = some skipsOn then s.pc + 4 else s.pc + 2 := by
  obtain ⟨k, hk, rfl⟩ := Option.map_eq_some_iff.1 (orOutOfBounds_eq_next.1 h)
  rw [skipIf_beginCycle_pc, keys_getElem?_eq_keyPressed s (keyOf_eq_some.1 hk), hc]
  simp

/-- FX0A (R120) leaves pc advanced with some key pressed, and rewinds it with none. -/
theorem execLdVxK_pc {x : Reg} {r : Option Byte} {s t : State} (h : execLdVxK x (s.beginCycle r) = .next t) :
    t.pc = if ∃ k : Key, s.keyPressed k = true then s.pc + 2 else s.pc := by
  have hkey : (s.beginCycle r).lowestKey = s.lowestKey := rfl
  unfold execLdVxK at h
  rw [hkey] at h
  cases hk : s.lowestKey with
  | some k =>
    obtain ⟨hpressed, -⟩ := State.lowestKey_eq_some.1 hk
    rw [hk] at h
    rw [if_pos ⟨k, hpressed⟩]
    exact pc_of_next h rfl
  | none =>
    have hnone : ¬ ∃ k : Key, s.keyPressed k = true := by simpa using State.lowestKey_eq_none.1 hk
    rw [hk] at h
    rw [if_neg hnone]
    exact pc_of_next h (pc_add_sub s.pc)

/-- Where each handler, begun after the advance, leaves pc: the table of R75. -/
theorem exec_pc {ins : Instr} {r : Option Byte} {s t : State} (h : exec ins (s.beginCycle r) = .next t) :
    t.pc = pcAfter s ins := by
  cases ins with
  | jp | jpV0 => exact pc_of_next h rfl
  | call =>
    obtain ⟨-, rfl⟩ := execCall_eq_next.1 h
    rfl
  | ret =>
    obtain ⟨-, hentry, rfl⟩ := execRet_eq_next.1 h
    have hget : s.stack[(s.sp - 1).toNat]? = some (s.stack[(s.sp - 1).toNat]'hentry) :=
      Vector.getElem?_eq_getElem hentry
    exact (congrArg (Option.getD · 0) hget).symm
  | seByte | sneByte | seReg | sneReg => exact pc_of_next h (by simp [skipIf_beginCycle_pc, pcAfter])
  | skp x => exact skipOnKey_pc (c := id) (skipsOn := true) (by decide) h
  | sknp x => exact skipOnKey_pc (c := not) (skipsOn := false) (by decide) h
  | ldVxK => exact execLdVxK_pc h
  | _ => exact (exec_frame h).pc (by simp [writtenParts])

/-- A failed operation leaves the state as it was (spec/60_exceptions.md R125). -/
theorem State.after_of_fault {op : HostOp} {s : State} {f : Fault} (h : perform op s = .fault f) : s.after op = s := by
  simp only [State.after, h]

/-- A CYCLE whose fetched word decodes and that completes is a handler that completes after the advance. -/
theorem exec_of_performCycle {b : Byte} {s t : State} {w : Word} {ins : Instr} (hf : s.fetchWord = some w)
    (hd : decode w = some ins) (h : perform (.cycle b) s = .next t) : exec ins (s.beginCycle (some b)) = .next t :=
  (cycle_decoded hf hd).symm.trans h

/-- Settles O16: by the cases of `exec_pc`; a failed CYCLE leaves the whole state as it was. -/
theorem pcAfterCycle : Obligations.PcAfterCycle :=
  ⟨fun _ _ _ _ _ hf hd h => exec_pc (exec_of_performCycle hf hd h),
    fun _ _ _ h => congrArg State.pc (State.after_of_fault h)⟩

/-! ### Timers and keypad (R77) -/

theorem SameOutside.dt {parts : List Part} {s t : State} (h : SameOutside parts s t) (hp : Part.dt ∉ parts) :
    t.dt = s.dt := by
  obtain ⟨-, -, -, -, -, hdt, -⟩ := h
  exact hdt hp

theorem SameOutside.st {parts : List Part} {s t : State} (h : SameOutside parts s t) (hp : Part.st ∉ parts) :
    t.st = s.st := by
  obtain ⟨-, -, -, -, -, -, hst, -⟩ := h
  exact hst hp

theorem SameOutside.keys {parts : List Part} {s t : State} (h : SameOutside parts s t) : t.keys = s.keys := by
  obtain ⟨-, -, -, -, -, -, -, -, -, hkeys, -⟩ := h
  exact hkeys

/-- FX15 alone writes DT (spec/10_state.md R22). -/
theorem dt_not_mem_writtenParts {ins : Instr} (h : ins.mnemonic ≠ "FX15") : Part.dt ∉ writtenParts ins := by
  cases ins with
  | ldDtVx => exact absurd rfl h
  | _ => simp [writtenParts]

/-- FX18 alone writes ST (R23). -/
theorem st_not_mem_writtenParts {ins : Instr} (h : ins.mnemonic ≠ "FX18") : Part.st ∉ writtenParts ins := by
  cases ins with
  | ldStVx => exact absurd rfl h
  | _ => simp [writtenParts]

/-- Settles O21: the advance touches neither timer nor the keypad, and the handler has the frame of `exec_frame`. -/
theorem cycleLeavesTimersAndKeys : Obligations.CycleLeavesTimersAndKeys := by
  intro b s t w ins hf hd h
  have hframe := exec_frame (exec_of_performCycle hf hd h)
  exact ⟨hframe.keys, fun hne => hframe.dt (dt_not_mem_writtenParts hne),
    fun hne => hframe.st (st_not_mem_writtenParts hne)⟩

/-! ### The step (R69, R70, R73) -/

/-- Settles O6: a CYCLE is the handler of the decoded instruction after the advance, and the fetch reads neither the draw
counter nor the host's list. -/
theorem stepRunsDecodedInstruction : Obligations.StepRunsDecodedInstruction := by
  refine ⟨fun s w ins hops hf hd => ?_, fun s b rest w ins hops hf hd => ?_, fun _ _ _ => step_of_cons⟩
  · rw [step_of_nil hops]
    exact cycle_decoded (s := s.nextDraw) hf hd
  · rw [step_of_cons hops]
    exact cycle_decoded (s := { s with hostOps := rest }) hf hd

/-! ### The fetch range check (R68) -/

theorem fetchLegal_iff {p : Word} : FetchLegal p ↔ 0x200 ≤ p.toNat ∧ p.toNat ≤ 4094 := by
  unfold FetchLegal Config.progBase Config.memSize
  omega

theorem cycle_of_fetch_none {r : Option Byte} {s : State} (h : s.fetchWord = none) :
    cycle r s = .fault (.outOfBounds s.pc none) := by
  simp only [cycle, h]

/-- A handler's failure reports P = pc - 2 and the instruction's word (spec/60_exceptions.md R124). -/
def HandlerReport (ins : Instr) (s : State) (f : Fault) : Prop :=
  faultPc f = some (s.pc - 2) ∧ faultWord f = some (encode ins)

theorem orOutOfBounds_fault_report {ins : Instr} {s : State} {o : Option State} {f : Fault}
    (h : orOutOfBounds ins s o = .fault f) : HandlerReport ins s f := by
  obtain ⟨-, rfl⟩ := orOutOfBounds_eq_fault.1 h
  exact ⟨rfl, rfl⟩

theorem execRet_fault_report {s : State} {f : Fault} (h : execRet s = .fault f) : HandlerReport .ret s f := by
  unfold execRet at h
  split at h
  · obtain rfl := Host.Outcome.fault.inj h
    exact ⟨rfl, rfl⟩
  · exact orOutOfBounds_fault_report h

theorem execCall_fault_report {nnn : Addr} {s : State} {f : Fault} (h : execCall nnn s = .fault f) :
    HandlerReport (.call nnn) s f := by
  unfold execCall at h
  split at h
  · obtain rfl := Host.Outcome.fault.inj h
    exact ⟨rfl, rfl⟩
  · exact orOutOfBounds_fault_report h

theorem execLdVxK_ne_fault {x : Reg} {s : State} {f : Fault} : execLdVxK x s ≠ .fault f := by
  unfold execLdVxK
  cases s.lowestKey <;> simp

theorem exec_fault_report {ins : Instr} {s : State} {f : Fault} (h : exec ins s = .fault f) :
    HandlerReport ins s f := by
  cases ins with
  | ret => exact execRet_fault_report h
  | call => exact execCall_fault_report h
  | drw | skp | sknp | ldBVx | ldMemVx | ldVxMem => exact orOutOfBounds_fault_report h
  | ldVxK => exact absurd h execLdVxK_ne_fault
  | _ => cases h

/-- Only the fetch fails without a word. -/
theorem fetchWord_none_of_cycle_fault {r : Option Byte} {s : State} {p : Word}
    (h : cycle r s = .fault (.outOfBounds p none)) : s.fetchWord = none := by
  obtain ⟨hf, -⟩ | ⟨w, -, -, hf⟩ | ⟨w, ins, -, -, hexec⟩ := cycle_eq_fault h
  · exact hf
  · cases hf
  · obtain ⟨-, hword⟩ := exec_fault_report hexec
    cases hword

/-- Settles O8: the fetch answers exactly on the range, and no later failure of a cycle comes without a word. -/
theorem fetchRangeCheck : Obligations.FetchRangeCheck := by
  intro r s
  refine ⟨fun hout => cycle_of_fetch_none (State.fetchWord_eq_none.2 fun hlegal => ?_), fun hin hfault => ?_,
    fun t h => ?_⟩
  · have := fetchLegal_iff.1 hlegal
    omega
  · exact State.fetchWord_eq_none.1 (fetchWord_none_of_cycle_fault hfault) (fetchLegal_iff.2 hin)
  · obtain ⟨hlegal, -⟩ := cycle_eq_next h
    exact fetchLegal_iff.1 hlegal

/-! ### Unknown words (R70, spec/70_reset_and_hazards.md R149) -/

theorem cycle_of_decode_none {r : Option Byte} {s : State} {w : Word} (hf : s.fetchWord = some w)
    (hd : decode w = none) : cycle r s = .fault (.unknownInstruction s.pc w) := by
  simp only [cycle, hf, hd]

theorem cycle_of_zero_bytes {r : Option Byte} {s : State} (hpc : FetchLegal s.pc) (hhi : s.load s.pc.toNat = some 0)
    (hlo : s.load (s.pc.toNat + 1) = some 0) : cycle r s = .fault (.unknownInstruction s.pc 0) :=
  cycle_of_decode_none (State.fetchWord_of_load hpc hhi hlo) (by decide)

/-- Settles O9: two zero bytes are a word of family 0 that is neither 0x00E0 nor 0x00EE, and reset memory holds them at
0x200. -/
theorem unknownWordFails : Obligations.UnknownWordFails :=
  ⟨fun _ _ _ => cycle_of_decode_none, fun _ _ hlow hhigh => cycle_of_zero_bytes (fetchLegal_iff.2 ⟨hlow, hhigh⟩),
    fun _ => cycle_of_zero_bytes (s := State.reset) (by decide) (by decide) (by decide)⟩

/-! ### A jump to itself (R78) -/

theorem zext16_eq_of_toNat_eq {nnn : Addr} {p : Word} (h : nnn.toNat = p.toNat) : zext16 nnn = p :=
  BitVec.eq_of_toNat_eq ((zext16_toNat (by decide) nnn).trans h)

/-- Settles O17: the jump writes pc alone, with the address it had before the advance. -/
theorem jumpToSelfChangesNothing : Obligations.JumpToSelfChangesNothing := by
  intro r s w nnn hf hd hself
  calc cycle r s = .next ((s.beginCycle r).setPc (zext16 nnn)) := cycle_decoded hf hd
    _ = .next ((s.beginCycle r).setPc s.pc) := by rw [zext16_eq_of_toNat_eq hself]

end Sys2Proof.Machine
end

section
/-! Control transfer and skips (spec/41_flow.md R79 to R86, R88): what 00EE and 2NNN do for each SP, where the two jumps
lead, and the words and the effect of the four skips that test registers. -/

namespace Sys2Proof.Machine

/-! ### Return and call (R79, R81) -/

theorem execRet_underflow {s : State} (h : s.sp.toNat = 0) : execRet s = .fault (.stackUnderflow (s.pc - 2) 0x00EE) :=
  if_pos (BitVec.eq_of_toNat_eq h)

theorem execCall_overflow {nnn : Addr} {s : State} (h : s.sp.toNat = 16) :
    execCall nnn s = .fault (.stackOverflow (s.pc - 2) (encode (.call nnn))) :=
  if_pos (BitVec.eq_of_toNat_eq h)

/-- With SP from 1 to 16, the entry at SP - 1 exists, and 00EE returns to it. -/
theorem execRet_pops {s : State} (hpos : 1 ≤ s.sp.toNat) (hle : s.sp.toNat ≤ 16) :
    ∃ t, execRet s = .next t ∧ t.sp.toNat = s.sp.toNat - 1 ∧ s.stack[s.sp.toNat - 1]? = some t.pc := by
  have hne : s.sp ≠ 0 := fun h0 => absurd (congrArg BitVec.toNat h0) (Nat.ne_of_gt hpos)
  have hsp : (s.sp - 1).toNat = s.sp.toNat - 1 := Nat.eq_sub_of_add_eq (sp_sub_one_toNat hne)
  have hentry : (s.sp - 1).toNat < Config.stackDepth := by
    unfold Config.stackDepth
    omega
  refine ⟨_, execRet_eq_next.2 ⟨hne, hentry, rfl⟩, hsp, ?_⟩
  rw [← hsp]
  exact Vector.getElem?_eq_getElem hentry

/-- Settles O26: 00EE pops by `execRet_pops`, with the frame of `exec_frame`. -/
theorem returnPopsNewestEntry : Obligations.ReturnPopsNewestEntry := by
  refine ⟨fun s hpos hle => ?_, fun _ => execRet_underflow⟩
  obtain ⟨t, hexec, hsp, hpc⟩ := execRet_pops hpos hle
  exact ⟨t, hexec, hsp, hpc, exec_frame (ins := .ret) hexec⟩

/-- With SP below 16, the entry at SP exists: 2NNN writes the advanced pc there, and no other entry. -/
theorem execCall_pushes (nnn : Addr) {s : State} (h : s.sp.toNat < 16) :
    ∃ t, execCall nnn s = .next t ∧ t.pc.toNat = nnn.toNat ∧ t.sp.toNat = s.sp.toNat + 1 ∧
      t.stack[s.sp.toNat]? = some s.pc ∧ ∀ j : Fin 16, j.val ≠ s.sp.toNat → t.stack[j] = s.stack[j] :=
  ⟨_, execCall_eq_next.2 ⟨h, rfl⟩, zext16_toNat (by decide) nnn, sp_add_one_toNat h, Vector.getElem?_set_self h,
    fun j hj => Vector.getElem_set_ne h j.isLt hj.symm⟩

/-- Settles O28: 2NNN pushes by `execCall_pushes`, with the frame of `exec_frame`. -/
theorem callPushesAndJumps : Obligations.CallPushesAndJumps := by
  refine ⟨fun nnn s h => ?_, fun _ _ => execCall_overflow⟩
  obtain ⟨t, hexec, hpc, hsp, hentry, hothers⟩ := execCall_pushes nnn h
  exact ⟨t, hexec, hpc, hsp, hentry, hothers, exec_frame (ins := .call nnn) hexec⟩

/-! ### Jumps (R80, R88) -/

/-- Settles O27: the target is NNN zero-extended. -/
theorem jumpGoesToTarget : Obligations.JumpGoesToTarget := fun nnn _ =>
  ⟨_, rfl, zext16_toNat (by decide) nnn, exec_frame (ins := .jp nnn) rfl⟩

/-- BNNN's sum, at most 0xFF + 0xFFF, does not wrap at 16 bits. -/
theorem jumpOffset_toNat (b : Byte) (nnn : Addr) : (zext16 b + zext16 nnn).toNat = b.toNat + nnn.toNat := by
  have hb := b.isLt
  have hnnn := nnn.isLt
  rw [BitVec.toNat_add, zext16_toNat (by decide), zext16_toNat (by decide)]
  omega

/-- Settles O29: by `jumpOffset_toNat`. -/
theorem jumpOffsetAddsV0 : Obligations.JumpOffsetAddsV0 := fun nnn s =>
  ⟨_, rfl, jumpOffset_toNat (s.reg 0) nnn, exec_frame (ins := .jpV0 nnn) rfl⟩

/-! ### Skips (R82 to R86) -/

/-- The one word that decodes to an instruction, by its value. -/
theorem decode_eq_some_iff_toNat {ins : Instr} {n : Nat} (hn : (encode ins).toNat = n) (w : Word) :
    decode w = some ins ↔ w.toNat = n := by
  rw [decode_eq_some_iff, BitVec.toNat_eq, hn, eq_comm]

/-- A handler that is a skip writes pc, as its condition says, and no flag. -/
theorem exec_of_skip {ins : Instr} {c : Bool} {p : Word} {s : State} (h : exec ins s = .next (s.skipIf c))
    (hp : p = if c then s.pc + 2 else s.pc) : ∃ t, exec ins s = .next t ∧ t.pc = p ∧ t.reg vf = s.reg vf := by
  refine ⟨_, h, ?_, ?_⟩
  · rw [State.skipIf_eq, State.setPc_pc, hp]
  · rw [State.skipIf_eq, State.reg_setPc]

/-- Settles O30: the words are of format XKK, and the skips compare V[X] with KK. -/
theorem skipsOnImmediate : Obligations.SkipsOnImmediate := fun x kk _ =>
  ⟨decode_eq_some_iff_toNat (formatXKK_toNat 0x3 x kk), decode_eq_some_iff_toNat (formatXKK_toNat 0x4 x kk),
    exec_of_skip rfl (by simp), exec_of_skip rfl (by simp)⟩

/-- Settles O31: the words are of format XY, and the skips compare V[X] with V[Y]. -/
theorem skipsOnRegisters : Obligations.SkipsOnRegisters := fun x y _ =>
  ⟨decode_eq_some_iff_toNat (formatXYN_toNat 0x5 x y 0x0), decode_eq_some_iff_toNat (formatXYN_toNat 0x9 x y 0x0),
    exec_of_skip rfl (by simp), exec_of_skip rfl (by simp)⟩

end Sys2Proof.Machine
end

section
/-! Call and return pairs (spec/41_flow.md R87): between a call and its return, any run that leaves the stack entries in use
as they were is followed by a return to the word after the call; so nested calls return, by induction on their targets. -/

namespace Sys2Proof.Machine

/-! ### Runs of handlers -/

theorem runHandlers_cons_of_next {ins : Instr} {rest : List Instr} {s u : State}
    (h : exec ins (s.nextDraw.beginCycle none) = .next u) : runHandlers (ins :: rest) s = runHandlers rest u := by
  simp only [runHandlers, h]

theorem runHandlers_append_of_next {front back : List Instr} {s u : State} (h : runHandlers front s = .next u) :
    runHandlers (front ++ back) s = runHandlers back u := by
  induction front generalizing s with
  | nil => rw [List.nil_append, Host.Outcome.next.inj h]
  | cons ins rest ih =>
    rw [runHandlers] at h
    split at h
    · rename_i v hv
      rw [List.cons_append, runHandlers_cons_of_next hv]
      exact ih h
    · cases h
    · cases h

/-! ### The stack entries in use -/

/-- `t` has the SP of `s`, and the entries below it hold what they hold in `s`. -/
def SameStackInUse (s t : State) : Prop :=
  t.sp = s.sp ∧ ∀ j : Fin 16, j.val < s.sp.toNat → t.stack[j] = s.stack[j]

/-- A call, a run that keeps the entries in use, the pushed one among them, and a return: control is at the word after the
call, and the entries in use before the call are as they were. -/
theorem call_body_return (nnn : Addr) {body : List Instr} {s : State} (h : s.sp.toNat < 16)
    (hbody : ∀ u : State, u.sp.toNat = s.sp.toNat + 1 → ∃ v, runHandlers body u = .next v ∧ SameStackInUse u v) :
    ∃ t, runHandlers (.call nnn :: (body ++ [.ret])) s = .next t ∧ SameStackInUse s t ∧ t.pc = s.pc + 2 := by
  obtain ⟨u, hcall, -, hspu, hpushed, hbelow⟩ := execCall_pushes nnn (s := s.nextDraw.beginCycle none) h
  obtain ⟨v, hrun, hspv, hkept⟩ := hbody u hspu
  have hspv' : v.sp.toNat = s.sp.toNat + 1 := hspv ▸ hspu
  obtain ⟨t, hret, hspt, hpopped⟩ := execRet_pops (s := v.nextDraw.beginCycle none)
    (show 1 ≤ v.sp.toNat by omega) (show v.sp.toNat ≤ 16 by omega)
  have hstack := (exec_frame (ins := .ret) hret).stack (by simp [writtenParts])
  simp only [State.beginCycle_sp, State.nextDraw_sp, State.beginCycle_pc, State.nextDraw_pc, State.beginCycle_stack,
    State.nextDraw_stack, hspv', Nat.add_sub_cancel] at hspu hpushed hbelow hspt hpopped hstack
  refine ⟨t, ?_, ⟨BitVec.eq_of_toNat_eq hspt, fun j hj => ?_⟩, ?_⟩
  · calc runHandlers (.call nnn :: (body ++ [.ret])) s
        = runHandlers (body ++ [.ret]) u := runHandlers_cons_of_next (ins := .call nnn) hcall
      _ = runHandlers [.ret] v := runHandlers_append_of_next hrun
      _ = .next t := runHandlers_cons_of_next (ins := .ret) hret
  · calc t.stack[j] = v.stack[j] := hstack j
      _ = u.stack[j] := hkept j (by omega)
      _ = s.stack[j] := hbelow j hj.ne
  · have htop : v.stack[s.sp.toNat]? = u.stack[s.sp.toNat]? := by
      rw [Vector.getElem?_eq_getElem h, Vector.getElem?_eq_getElem h]
      exact congrArg some (hkept ⟨_, h⟩ (by simp [hspu]))
    exact Option.some.inj (hpopped.symm.trans (htop.trans hpushed))

/-! ### Nested calls (R87) -/

/-- A call to each target in turn, and then as many returns. -/
def nestedCalls (targets : List Addr) : List Instr :=
  targets.map .call ++ List.replicate targets.length .ret

theorem nestedCalls_cons (nnn : Addr) (rest : List Addr) :
    nestedCalls (nnn :: rest) = .call nnn :: (nestedCalls rest ++ [.ret]) := by
  simp [nestedCalls, List.replicate_succ']

/-- Each call and the return that matches it enclose a nest one shorter, which keeps the entries in use. -/
theorem nestedCalls_return (targets : List Addr) (s : State) (h : s.sp.toNat + targets.length ≤ 16) :
    ∃ t, runHandlers (nestedCalls targets) s = .next t ∧ SameStackInUse s t ∧ (targets ≠ [] → t.pc = s.pc + 2) := by
  induction targets generalizing s with
  | nil => exact ⟨s, rfl, ⟨rfl, fun _ _ => rfl⟩, fun hne => absurd rfl hne⟩
  | cons nnn rest ih =>
    rw [List.length_cons] at h
    have hinner : ∀ u : State, u.sp.toNat = s.sp.toNat + 1 →
        ∃ v, runHandlers (nestedCalls rest) u = .next v ∧ SameStackInUse u v := by
      intro u hu
      obtain ⟨v, hrun, hsame, -⟩ := ih u (by omega)
      exact ⟨v, hrun, hsame⟩
    obtain ⟨t, hrun, hsame, hpc⟩ := call_body_return nnn (by omega) hinner
    exact ⟨t, nestedCalls_cons nnn rest ▸ hrun, hsame, fun _ => hpc⟩

/-- Settles O32: `nestedCalls_return` for a list of targets that is not empty. -/
theorem nestedCallsReturn : Obligations.NestedCallsReturn := by
  intro targets s hne h
  obtain ⟨t, hrun, ⟨hsp, -⟩, hpc⟩ := nestedCalls_return targets s h
  exact ⟨t, hrun, hsp, hpc hne⟩

end Sys2Proof.Machine
end

section
/-! Register arithmetic (spec/42_alu.md R90 to R101, R104). A handler writes one register, or VF first and its result
after it (R8): what each of the two shapes does is said once, and each obligation finds its instructions' shapes in
`exec`. -/

namespace Sys2Proof.Machine

/-! ### One register written (R90 to R95, R101) -/

theorem RegsSameBut.vf_eq {x : Reg} {s t : State} (h : RegsSameBut [x] s t) (hx : x ≠ vf) : t.reg vf = s.reg vf :=
  h vf (List.not_mem_cons_of_ne_of_not_mem hx.symm List.not_mem_nil)

/-- A handler that writes one register and nothing else. -/
theorem exec_of_setReg {ins : Instr} {x : Reg} {b : Byte} {s : State} (h : exec ins s = .next (s.setReg x b)) :
    ∃ t, exec ins s = .next t ∧ t.reg x = b ∧ RegsSameBut [x] s t ∧ SameOutside [.regs] s t :=
  ⟨_, h, s.reg_setReg_self x b, regsSameBut_setReg s x b, sameOutside_v s _⟩

/-- Settles O33: the words are of formats XKK and XY, and each handler writes V[X] alone. -/
theorem loadAndCopyWriteX : Obligations.LoadAndCopyWriteX := by
  intro x y kk s
  obtain ⟨t, hload, hkk, hloadRegs, -⟩ := exec_of_setReg (ins := .ldByte x kk) (s := s) rfl
  obtain ⟨u, hcopy, hy, hcopyRegs, -⟩ := exec_of_setReg (ins := .ldReg x y) (s := s) rfl
  exact ⟨decode_eq_some_iff_toNat (formatXKK_toNat 0x6 x kk), decode_eq_some_iff_toNat (formatXYN_toNat 0x8 x y 0x0),
    ⟨t, hload, hkk, hloadRegs.vf_eq⟩, ⟨u, hcopy, hy, hcopyRegs.vf_eq⟩⟩

/-- Settles O34: each of the three handlers writes V[X] alone. -/
theorem logicLeavesFlagAlone : Obligations.LogicLeavesFlagAlone := fun _ _ _ =>
  ⟨exec_of_setReg rfl, exec_of_setReg rfl, exec_of_setReg rfl⟩

/-- Settles O35: the word is of format XKK, and the handler writes V[X] alone, with the sum of two bytes. -/
theorem addImmediateWraps : Obligations.AddImmediateWraps := by
  intro x kk s
  obtain ⟨t, hexec, hsum, hregs, -⟩ := exec_of_setReg (ins := .addByte x kk) (s := s) rfl
  exact ⟨decode_eq_some_iff_toNat (formatXKK_toNat 0x7 x kk), t, hexec, hsum ▸ BitVec.toNat_add .., hregs.vf_eq⟩

theorem State.inputByte_of_some {s : State} {b : Byte} (h : s.rnd = some b) : s.inputByte = b := by
  simp [State.inputByte, h]

/-- Settles O41: the handler writes V[X] alone, with a masked byte, whichever byte it is. -/
theorem randomUnderMask : Obligations.RandomUnderMask := by
  intro x kk s
  obtain ⟨t, hexec, hbyte, hframe⟩ := exec_of_setReg (ins := .rnd x kk) (s := s) rfl
  refine ⟨t, hexec, hbyte, fun b hb => ?_, ?_, hframe⟩
  · rw [hbyte, State.inputByte_of_some hb]
  · rw [hbyte, BitVec.and_assoc, BitVec.and_not_self]
    exact BitVec.and_zero

/-! ### VF written first, the result after it (R8, R96 to R100) -/

/-- A handler that writes a flag and then a result: the result stands in V[X], the flag in VF unless VF is V[X], and
nothing else changes. -/
theorem exec_of_flagThenResult {ins : Instr} {flag : Byte} {x : Reg} {result : State → Byte} {s : State}
    (h : exec ins s = .next (flagThenResult flag x result s)) :
    ∃ t, exec ins s = .next t ∧ t.reg x = result (s.setReg vf flag) ∧ (x ≠ vf → t.reg vf = flag) ∧
      RegsSameBut [vf, x] s t ∧ SameOutside [.regs] s t := by
  refine ⟨_, h, ?_, fun hx => ?_, regsSameBut_flagThenResult flag x result s, ?_⟩
  · rw [flagThenResult_reg, if_pos rfl]
  · rw [flagThenResult_reg, if_neg hx.symm, if_pos rfl]
  · exact sameOutside_v s _

/-- Settles O36: the sum is taken before the flag write, so V[X] holds its low byte whether or not X is VF. -/
theorem addWritesCarry : Obligations.AddWritesCarry := by
  intro x y s
  obtain ⟨t, hexec, hsum, hflag, hframe⟩ := exec_of_flagThenResult (ins := .addReg x y) (s := s) rfl
  refine ⟨t, hexec, ?_, fun hx => ?_, hframe⟩
  · rw [hsum, BitVec.toNat_setWidth, wideSum_toNat]
  · rw [hflag hx, carryFlag_eq]

/-! ### Subtraction (R97, R99) -/

/-- A handler whose result reads V[X] and V[Y] after the flag write: an operand that is VF reads the flag, and a
destination that is VF holds the result (decision D2). -/
theorem exec_of_flagThenBinary {ins : Instr} {flag : Byte} {x y : Reg} {op : Byte → Byte → Byte} {s : State}
    (h : exec ins s = .next (flagThenResult flag x (fun t => op (t.reg x) (t.reg y)) s)) :
    ∃ t, exec ins s = .next t ∧
      ((x ≠ vf → y ≠ vf → t.reg vf = flag ∧ t.reg x = op (s.reg x) (s.reg y)) ∧
       (x ≠ vf → y = vf → t.reg vf = flag ∧ t.reg x = op (s.reg x) flag) ∧
       (x = vf → y ≠ vf → t.reg vf = op flag (s.reg y)) ∧
       (x = vf → y = vf → t.reg vf = op flag flag)) ∧
      RegsSameBut [vf, x] s t ∧ SameOutside [.regs] s t := by
  obtain ⟨t, hexec, hresult, hflag, hframe⟩ := exec_of_flagThenResult h
  refine ⟨t, hexec, ⟨fun hx hy => ⟨hflag hx, ?_⟩, fun hx hy => ⟨hflag hx, ?_⟩, fun hx hy => ?_, fun hx hy => ?_⟩,
    hframe⟩
  · rw [hresult, s.reg_setReg_ne flag hx, s.reg_setReg_ne flag hy]
  · rw [hresult, s.reg_setReg_ne flag hx, hy, s.reg_setReg_self]
  · rw [← hx, hresult, hx, s.reg_setReg_self, s.reg_setReg_ne flag hy]
  · rw [← hx, hresult, hx, hy, s.reg_setReg_self]

/-- Settles O37: `exec_of_flagThenBinary` for V[X] - V[Y]; where both are VF, the flag less itself is 0. -/
theorem subtractWritesFlagFirst : Obligations.SubtractWritesFlagFirst := by
  intro x y s
  have hsub := exec_of_flagThenBinary (ins := .subReg x y) (op := fun a b => a - b) (s := s) rfl
  simpa only [greaterFlag_eq, BitVec.sub_self, BitVec.ofNat_eq_ofNat] using hsub

/-- Settles O38: `exec_of_flagThenBinary` for V[Y] - V[X]; where both are VF, the flag less itself is 0. -/
theorem reverseSubtractWritesFlagFirst : Obligations.ReverseSubtractWritesFlagFirst := by
  intro x y s
  have hsub := exec_of_flagThenBinary (ins := .subnReg x y) (op := fun a b => b - a) (s := s) rfl
  simpa only [greaterFlag_eq, BitVec.sub_self, BitVec.ofNat_eq_ofNat] using hsub

/-! ### Shifts (R98, R100, R104) -/

/-- A handler whose flag and result both read V[X], the flag before its own write and the result after it. -/
def FlagsThenShifts (ins : Instr) (x : Reg) (flag shift : Byte → Byte) : Prop :=
  ∀ s : State, exec ins s = .next (flagThenResult (flag (s.reg x)) x (fun t => shift (t.reg x)) s)

theorem shrReg_flagsThenShifts (x y : Reg) : FlagsThenShifts (.shrReg x y) x lowBitFlag (· >>> 1) := fun _ => rfl

theorem shlReg_flagsThenShifts (x y : Reg) : FlagsThenShifts (.shlReg x y) x highBitFlag (· <<< 1) := fun _ => rfl

/-- With X not VF, V[X] is shifted and VF holds the flag; with X = VF, the flag itself is shifted (decision D2). -/
theorem FlagsThenShifts.completes {ins : Instr} {x : Reg} {flag shift : Byte → Byte}
    (h : FlagsThenShifts ins x flag shift) (s : State) :
    ∃ t, exec ins s = .next t ∧ (x ≠ vf → t.reg x = shift (s.reg x) ∧ t.reg vf = flag (s.reg x)) ∧
      (x = vf → t.reg vf = shift (flag (s.reg vf))) ∧ RegsSameBut [vf, x] s t ∧ SameOutside [.regs] s t := by
  obtain ⟨t, hexec, hresult, hflag, hframe⟩ := exec_of_flagThenResult (h s)
  refine ⟨t, hexec, fun hx => ⟨?_, hflag hx⟩, fun hx => ?_, hframe⟩
  · rw [hresult, s.reg_setReg_ne _ hx]
  · rw [← hx, hresult, ← hx, s.reg_setReg_self]

theorem flagByte_shiftRight_one (c : Bool) : flagByte c >>> 1 = 0 := by
  cases c <;> rfl

theorem highBitFlag_shiftLeft_one (a : Byte) : highBitFlag a <<< 1 = if a.toNat ≥ 128 then 2 else 0 := by
  have ha := a.isLt
  apply BitVec.eq_of_toNat_eq
  rw [BitVec.toNat_shiftLeft, highBitFlag_toNat]
  split
  · rw [show a.toNat / 128 = 1 by omega]
    rfl
  · rw [show a.toNat / 128 = 0 by omega]
    rfl

/-- Settles O39: `FlagsThenShifts.completes` for the two shifts by one, as halving and doubling. -/
theorem shiftsCaptureBit : Obligations.ShiftsCaptureBit := by
  intro x y s
  constructor
  · obtain ⟨t, hexec, hother, hvf, hframe⟩ := (shrReg_flagsThenShifts x y).completes s
    refine ⟨t, hexec, fun hx => ?_, fun hx => ?_, hframe⟩
    · obtain ⟨hshift, hflag⟩ := hother hx
      rw [hshift, hflag, lowBitFlag_toNat, BitVec.toNat_ushiftRight, Nat.shiftRight_one]
      exact ⟨rfl, rfl⟩
    · rw [hvf hx, lowBitFlag, flagByte_shiftRight_one]
  · obtain ⟨t, hexec, hother, hvf, hframe⟩ := (shlReg_flagsThenShifts x y).completes s
    refine ⟨t, hexec, fun hx => ?_, fun hx => ?_, hframe⟩
    · obtain ⟨hshift, hflag⟩ := hother hx
      rw [hshift, hflag, highBitFlag_toNat, BitVec.toNat_shiftLeft, Nat.shiftLeft_eq, pow_one]
      exact ⟨rfl, rfl⟩
    · rw [hvf hx, highBitFlag_shiftLeft_one]

/-- Two shifts of a register that is not VF, one after the other: VF holds the second's flag, of the first's result. -/
theorem FlagsThenShifts.run_pair {ins ins' : Instr} {x : Reg} {flag shift flag' shift' : Byte → Byte}
    (h : FlagsThenShifts ins x flag shift) (h' : FlagsThenShifts ins' x flag' shift') (hx : x ≠ vf) (s : State) :
    ∃ t, runHandlers [ins, ins'] s = .next t ∧ t.reg x = shift' (shift (s.reg x)) ∧
      t.reg vf = flag' (shift (s.reg x)) := by
  obtain ⟨u, hfirst, hu, -⟩ := h.completes (s.nextDraw.beginCycle none)
  obtain ⟨t, hsecond, ht, -⟩ := h'.completes (u.nextDraw.beginCycle none)
  obtain ⟨hux, -⟩ := hu hx
  obtain ⟨htx, htvf⟩ := ht hx
  simp only [State.reg_beginCycle, State.reg_nextDraw] at hux htx htvf
  rw [hux] at htx htvf
  exact ⟨t, (runHandlers_cons_of_next hfirst).trans (runHandlers_cons_of_next hsecond), htx, htvf⟩

theorem shiftRight_shiftLeft_one (a : Byte) : a >>> 1 <<< 1 = a &&& 0xFE := BitVec.shiftLeft_ushiftRight

theorem shiftLeft_shiftRight_one (a : Byte) : a <<< 1 >>> 1 = a &&& 0x7F := by
  apply BitVec.eq_of_toNat_eq
  have hmask : (0x7F : Byte).toNat = 2 ^ 7 - 1 := rfl
  rw [BitVec.toNat_ushiftRight, BitVec.toNat_shiftLeft, Nat.shiftLeft_eq, Nat.shiftRight_one, BitVec.toNat_and, hmask,
    Nat.and_two_pow_sub_one_eq_mod]
  omega

theorem highBitFlag_shiftRight_one (a : Byte) : highBitFlag (a >>> 1) = 0 := by
  have hbit : (a >>> 1).getLsbD 7 = false := by simp
  rw [highBitFlag, hbit, flagByte_eq, if_neg Bool.false_ne_true]

theorem lowBitFlag_shiftLeft_one (a : Byte) : lowBitFlag (a <<< 1) = 0 := by
  have hbit : (a <<< 1).getLsbD 0 = false := by simp
  rw [lowBitFlag, hbit, flagByte_eq, if_neg Bool.false_ne_true]

/-- Settles O40: by `FlagsThenShifts.run_pair`, the second shift brings in a 0 where the first shifted a bit out, and
shifts out the 0 the first brought in. -/
theorem shiftPairsClearOneBit : Obligations.ShiftPairsClearOneBit := by
  intro x y y' s hx
  have hright := (shrReg_flagsThenShifts x y).run_pair (shlReg_flagsThenShifts x y') hx s
  have hleft := (shlReg_flagsThenShifts x y).run_pair (shrReg_flagsThenShifts x y') hx s
  rw [shiftRight_shiftLeft_one, highBitFlag_shiftRight_one] at hright
  rw [shiftLeft_shiftRight_one, lowBitFlag_shiftLeft_one] at hleft
  exact ⟨hright, hleft⟩

end Sys2Proof.Machine
end

section
/-! The index register and the block transfers (spec/43_index_memory.md R105 to R111): what I holds after the three
instructions that write it; when a run of stores or of loads from I on completes, and what its cells and registers hold
then. -/

namespace Sys2Proof.Machine

/-! ### The index register (R105 to R107) -/

/-- FX1E's sum is taken modulo 65536 (decision D13). -/
theorem indexSum_toNat (i : Word) (b : Byte) : (i + zext16 b).toNat = (i.toNat + b.toNat) % 65536 := by
  rw [BitVec.toNat_add, zext16_toNat (by decide)]

/-- Settles O42: each handler writes I, with NNN zero-extended, the sum, or the glyph's address. -/
theorem indexWrites : Obligations.IndexWrites := fun nnn x s =>
  ⟨⟨_, rfl, zext16_toNat (by decide) nnn, exec_frame (ins := .ldI nnn) rfl⟩,
    ⟨_, rfl, indexSum_toNat s.index (s.reg x), exec_frame (ins := .addIVx x) rfl⟩,
    ⟨_, rfl, glyphAddr_toNat (s.reg x), exec_frame (ins := .ldFVx x) rfl⟩⟩

/-! ### Stores from I on (R108, R109) -/

/-- A run of stores from I on that ends inside memory completes. -/
theorem storeBytes_completes (ins : Instr) {bytes : List Byte} {s : State} (h : s.index.toNat + bytes.length ≤ 4096) :
    ∃ t, orOutOfBounds ins s (storeFrom 0 bytes s) = .next t :=
  ⟨_, orOutOfBounds_eq_next.2 (storeFrom_eq_some.2 ⟨.inr h, rfl⟩)⟩

/-- A run of stores from I on that ends past memory fails (decision D6). -/
theorem storeBytes_outOfBounds (ins : Instr) {bytes : List Byte} {s : State} (hne : bytes ≠ [])
    (h : 4096 < s.index.toNat + bytes.length) :
    orOutOfBounds ins s (storeFrom 0 bytes s) = .fault (.outOfBounds (s.pc - 2) (some (encode ins))) := by
  have hpast : ¬ s.effAddr 0 + bytes.length ≤ Config.memSize := Nat.not_le_of_lt h
  rw [storeFrom_eq, if_neg (not_or.2 ⟨hne, hpast⟩), orOutOfBounds_none]

/-- The cell at I + k reads as the k-th byte stored. -/
theorem storeBytes_load_stored {ins : Instr} {bytes : List Byte} {s t : State} {k : Nat} {b : Byte}
    (h : orOutOfBounds ins s (storeFrom 0 bytes s) = .next t) (hb : bytes[k]? = some b) :
    t.load (s.index.toNat + k) = some b := by
  have hfrom : s.effAddr 0 = s.index.toNat := rfl
  obtain ⟨hk, -⟩ := List.getElem?_eq_some_iff.1 hb
  rw [storeBytes_load h, hfrom, if_pos ⟨Nat.le_add_right .., Nat.add_lt_add_left hk _⟩, Nat.add_sub_cancel_left, hb]

/-- Settles O43: FX33 is a run of three stores, and their bytes are the digits. -/
theorem decimalDigitsStored : Obligations.DecimalDigitsStored := by
  refine fun x s => ⟨fun hfit => ?_, fun hpast => ?_⟩
  · obtain ⟨t, h⟩ := storeBytes_completes (.ldBVx x)
      (bytes := [bcdHundreds (s.reg x), bcdTens (s.reg x), bcdOnes (s.reg x)]) (Nat.succ_le_succ hfit)
    obtain ⟨hhundreds, htens, hones⟩ := bcd_toNat (s.reg x)
    exact ⟨t, _, _, _, h, storeBytes_load_stored h (k := 0) rfl, storeBytes_load_stored h (k := 1) rfl,
      storeBytes_load_stored h (k := 2) rfl, hhundreds, htens, hones,
      fun a => memoryFrame (.ldBVx x) s t a h, exec_frame (ins := .ldBVx x) h⟩
  · exact storeBytes_outOfBounds _ (List.cons_ne_nil _ _) (Nat.succ_lt_succ hpast)

theorem map_regsUpTo_length (x : Reg) (s : State) : ((regsUpTo x).map s.reg).length = x.val + 1 := by
  rw [List.length_map, regsUpTo_length]

/-- With I + X inside memory, FX55 completes. -/
theorem execLdMemVx_completes {x : Reg} {s : State} (h : s.index.toNat + x.val ≤ 4095) :
    ∃ t, execLdMemVx x s = .next t :=
  storeBytes_completes (.ldMemVx x) (by rw [map_regsUpTo_length]; exact Nat.succ_le_succ h)

/-- Settles O44: FX55 is a run of X + 1 stores, one for each register. -/
theorem blockStore : Obligations.BlockStore := by
  refine fun x s => ⟨fun hfit => ?_, fun hpast => ?_⟩
  · obtain ⟨t, h⟩ := execLdMemVx_completes hfit
    exact ⟨t, h, fun r => execLdMemVx_load h, fun a => memoryFrame (.ldMemVx x) s t a h,
      exec_frame (ins := .ldMemVx x) h⟩
  · refine storeBytes_outOfBounds (.ldMemVx x) (mt List.map_eq_nil_iff.1 (regsUpTo_ne_nil x)) ?_
    rw [map_regsUpTo_length]
    exact Nat.succ_lt_succ hpast

/-! ### Loads from I on (R110) -/

/-- With I + X inside memory, FX65 completes: its other addresses are lower. -/
theorem execLdVxMem_completes {x : Reg} {s : State} (h : s.index.toNat + x.val ≤ 4095) :
    ∃ t, execLdVxMem x s = .next t := by
  cases hload : loadRegs (regsUpTo x) s with
  | some t => exact ⟨t, orOutOfBounds_eq_next.2 hload⟩
  | none =>
    obtain ⟨r, hr, hpast⟩ := (loadRegs_spec (regsUpTo x) s).2 hload
    have hrx : r.val ≤ x.val := mem_regsUpTo.1 hr
    unfold Config.memSize State.effAddr at hpast
    omega

/-- With I + X past memory, FX65 fails (decision D6): the load of V[X] does. -/
theorem execLdVxMem_outOfBounds {x : Reg} {s : State} (h : s.index.toNat + x.val > 4095) :
    execLdVxMem x s = .fault (.outOfBounds (s.pc - 2) (some (encode (.ldVxMem x)))) := by
  refine orOutOfBounds_eq_fault.2 ⟨Option.eq_none_iff_forall_ne_some.2 fun t hload => ?_, rfl⟩
  obtain ⟨hcells, -⟩ := (loadRegs_spec (regsUpTo x) s).1 t hload
  exact absurd (hcells x (mem_regsUpTo.2 (le_refl x))) (Nat.not_lt_of_le h)

/-- FX65: V[r] holds the cell at I + r after it. -/
theorem execLdVxMem_load {x r : Reg} {s t : State} (h : execLdVxMem x s = .next t) (hr : r ≤ x) :
    s.load (s.effAddr r.val) = some (t.reg r) := by
  obtain ⟨hcells, -, hregs⟩ := (loadRegs_spec (regsUpTo x) s).1 t (orOutOfBounds_eq_next.1 h)
  have hmem := mem_regsUpTo.2 hr
  rw [State.load_some (hcells r hmem), hregs r, if_pos hmem]

/-- FX65 leaves the registers above V[X] as they were. -/
theorem execLdVxMem_reg_above {x r : Reg} {s t : State} (h : execLdVxMem x s = .next t) (hr : x < r) :
    t.reg r = s.reg r :=
  execLdVxMem_regs h r fun hmem => absurd (mem_regsUpTo.1 hmem) (not_le_of_gt hr)

/-- Settles O45: FX65 loads each register up to V[X] from its own cell. -/
theorem blockLoad : Obligations.BlockLoad := by
  refine fun x s => ⟨fun hfit => ?_, fun hpast => execLdVxMem_outOfBounds hpast⟩
  obtain ⟨t, h⟩ := execLdVxMem_completes hfit
  exact ⟨t, h, fun r => execLdVxMem_load h, fun r => execLdVxMem_reg_above h, execLdVxMem_frame h⟩

/-! ### A store and the load that matches it (R111) -/

theorem SameOutside.index {parts : List Part} {s t : State} (h : SameOutside parts s t) (hp : Part.index ∉ parts) :
    t.index = s.index := by
  obtain ⟨-, hindex, -⟩ := h
  exact hindex hp

/-- FX55 leaves I and the registers alone, and the advance of the next cycle leaves I, the registers and memory alone; so
FX65 then gives back every register. -/
theorem execLdVxMem_restores {x : Reg} {s t u : State} (hstore : execLdMemVx x s = .next t)
    (hload : execLdVxMem x (t.nextDraw.beginCycle none) = .next u) (r : Reg) : u.reg r = s.reg r := by
  have hframe := exec_frame (ins := .ldMemVx x) hstore
  by_cases hr : r ≤ x
  · have haddr : (t.nextDraw.beginCycle none).effAddr r.val = s.effAddr r.val :=
      congrArg (fun i : Word => i.toNat + r.val) (hframe.index (by simp [writtenParts]))
    apply Option.some.inj
    calc some (u.reg r) = t.load ((t.nextDraw.beginCycle none).effAddr r.val) := (execLdVxMem_load hload hr).symm
      _ = t.load (s.effAddr r.val) := by rw [haddr]
      _ = some (s.reg r) := execLdMemVx_load hstore hr
  · calc u.reg r = (t.nextDraw.beginCycle none).reg r := execLdVxMem_reg_above hload (lt_of_not_ge hr)
      _ = s.reg r := hframe.regs (by simp [writtenParts]) r

/-- Settles O46: FX55 leaves I alone, so FX65 completes too, and gives back the registers by `execLdVxMem_restores`. -/
theorem storeThenLoadRestores : Obligations.StoreThenLoadRestores := by
  intro x s hfit
  obtain ⟨t, hstore⟩ := execLdMemVx_completes (s := s.nextDraw.beginCycle none) hfit
  have hindex : t.index = s.index := (exec_frame (ins := .ldMemVx x) hstore).index (by simp [writtenParts])
  obtain ⟨u, hload⟩ := execLdVxMem_completes (x := x) (s := t.nextDraw.beginCycle none) (by rwa [← hindex] at hfit)
  refine ⟨t, u, runHandlers_cons_of_next (ins := .ldMemVx x) hstore, ?_, ?_, ?_⟩
  · calc runHandlers [.ldMemVx x, .ldVxMem x] s
        = runHandlers [.ldVxMem x] t := runHandlers_cons_of_next (ins := .ldMemVx x) hstore
      _ = .next u := runHandlers_cons_of_next (ins := .ldVxMem x) hload
  · exact execLdVxMem_restores (s := s.nextDraw.beginCycle none) hstore hload
  · exact fun a => (execLdVxMem_frame hload).load (by decide) a

end Sys2Proof.Machine
end

section
/-! The display (spec/44_display.md R112 to R115): 00E0, and what DXYN's pixels, flag and failure are in the closed form's
terms; from these, what a second draw of the same sprite gives, and the picture of a font glyph. -/

namespace Sys2Proof.Machine

/-! ### Clear (R112) -/

/-- Settles O48: the word is the encoding of 00E0, and its handler writes the framebuffer alone, with blank rows. -/
theorem clearTurnsPixelsOff : Obligations.ClearTurnsPixelsOff :=
  ⟨fun _ => decode_eq_some_iff.trans eq_comm,
    fun s => ⟨s.clearDisplay, rfl, s.pixel_clearDisplay, exec_frame (ins := .cls) rfl⟩⟩

/-! ### One draw (R113, R114) -/

theorem execDrw_pixel {x y : Reg} {n : Nibble} {s t : State} (h : execDrw x y n s = .next t) (py : Fin 32)
    (px : Fin 64) : t.pixel py px = (s.pixel py px ^^ spriteCovers s (s.reg x) (s.reg y) n py.val px.val) := by
  obtain ⟨-, hdrawn⟩ := execDrw_eq_next h
  exact hdrawn.pixels py px

/-- The sprite of a draw has a set bit on a pixel that is on before it: the collision of R113. -/
def Collides (s : State) (vx vy : Byte) (n : Nibble) : Prop :=
  ∃ (py : Fin 32) (px : Fin 64), spriteCovers s vx vy n py.val px.val = true ∧ s.pixel py px = true

theorem execDrw_vf_of_collides {x y : Reg} {n : Nibble} {s t : State} (h : execDrw x y n s = .next t)
    (hc : Collides s (s.reg x) (s.reg y) n) : t.reg vf = 1 := by
  obtain ⟨-, hdrawn⟩ := execDrw_eq_next h
  exact hdrawn.met hc

/-- Without a collision, VF keeps the 0 written before the loops. -/
theorem execDrw_vf_of_not_collides {x y : Reg} {n : Nibble} {s t : State} (h : execDrw x y n s = .next t)
    (hc : ¬ Collides s (s.reg x) (s.reg y) n) : t.reg vf = 0 := by
  obtain ⟨-, hdrawn⟩ := execDrw_eq_next h
  exact (hdrawn.missed hc).trans (s.reg_setReg_self vf 0)

/-- VF after a draw is a flag, and it tells of a collision. -/
theorem execDrw_vf {x y : Reg} {n : Nibble} {s t : State} (h : execDrw x y n s = .next t) :
    (t.reg vf = 0 ∨ t.reg vf = 1) ∧ (t.reg vf = 1 ↔ Collides s (s.reg x) (s.reg y) n) := by
  by_cases hc : Collides s (s.reg x) (s.reg y) n
  · have hvf := execDrw_vf_of_collides h hc
    exact ⟨.inr hvf, iff_of_true hvf hc⟩
  · have hvf := execDrw_vf_of_not_collides h hc
    exact ⟨.inl hvf, iff_of_false (by simp [hvf]) hc⟩

/-- A draw that is not legal fails (decisions D6, D8): one that completes is legal. -/
theorem execDrw_outOfBounds {x y : Reg} {n : Nibble} {s : State} (h : ¬ DrawLegal s (s.reg x) (s.reg y) n) :
    execDrw x y n s = .fault (.outOfBounds (s.pc - 2) (some (encode (.drw x y n)))) := by
  refine orOutOfBounds_eq_fault.2 ⟨Option.eq_none_iff_forall_ne_some.2 fun t hdraw => ?_, rfl⟩
  obtain ⟨hlegal, -⟩ := execDrw_eq_next (orOutOfBounds_eq_next.2 hdraw)
  exact h hlegal

/-- Settles O49: a legal draw completes, with the pixels of `execDrw_pixel` and the flag of `execDrw_vf`. -/
theorem drawXorsSprite : Obligations.DrawXorsSprite := by
  refine fun x y n s => ⟨fun hlegal => ?_, execDrw_outOfBounds⟩
  obtain ⟨t, h⟩ := execDrw_completes hlegal
  obtain ⟨hflag, hmet⟩ := execDrw_vf h
  exact ⟨t, h, execDrw_pixel h, hflag, hmet, execDrw_regs h, execDrw_frame h⟩

/-! ### The same sprite drawn twice (R115) -/

section
variable {s t : State} (hmem : t.mem = s.mem) (hindex : t.index = s.index)
include hmem hindex

/-- Whether a draw is legal depends on memory, I and the origin alone. -/
theorem DrawLegal.congr {vx vy : Byte} {n : Nibble} : DrawLegal t vx vy n ↔ DrawLegal s vx vy n := by
  simp only [DrawLegal, State.effAddr, hmem, hindex]

/-- The pixels a sprite covers depend on memory, I and the origin alone. -/
theorem spriteCovers_congr (vx vy : Byte) (n : Nibble) : spriteCovers t vx vy n = spriteCovers s vx vy n := by
  funext py px
  simp only [spriteCovers, State.effAddr, hmem, hindex]

end

/-- A draw with neither X nor Y as VF leaves memory, I and the registers of its origin alone, so the same instruction then
draws the same sprite at the same place. -/
theorem execDrw_keeps_sprite {x y : Reg} {n : Nibble} {s t : State} (hx : x ≠ vf) (hy : y ≠ vf)
    (h : execDrw x y n s = .next t) :
    DrawLegal t (t.reg x) (t.reg y) n ∧ spriteCovers t (t.reg x) (t.reg y) n = spriteCovers s (s.reg x) (s.reg y) n := by
  have hmem : t.mem = s.mem := execDrw_mem h
  have hindex : t.index = s.index := (execDrw_frame h).index (by decide)
  obtain ⟨hlegal, -⟩ := execDrw_eq_next h
  rw [execDrw_regs h x (by simpa using hx), execDrw_regs h y (by simpa using hy)]
  exact ⟨(DrawLegal.congr hmem hindex).2 hlegal, spriteCovers_congr hmem hindex ..⟩

/-- The same sprite, after it was drawn, meets a lit pixel exactly where the draw covered a dark one. -/
theorem execDrw_collides_again {x y : Reg} {n : Nibble} {s t : State} (h : execDrw x y n s = .next t)
    (hcovers : spriteCovers t (t.reg x) (t.reg y) n = spriteCovers s (s.reg x) (s.reg y) n) :
    Collides t (t.reg x) (t.reg y) n ↔
      ∃ (py : Fin 32) (px : Fin 64), spriteCovers s (s.reg x) (s.reg y) n py.val px.val = true ∧ s.pixel py px = false := by
  unfold Collides
  rw [hcovers]
  refine exists_congr fun py => exists_congr fun px => and_congr_right fun hc => ?_
  simp [execDrw_pixel h, hc]

/-- Settles O50: by `execDrw_keeps_sprite` the second draw completes and toggles the same pixels back, and its flag is that
of `execDrw_collides_again`. -/
theorem drawTwiceRestores : Obligations.DrawTwiceRestores := by
  intro x y n s hx hy hlegal
  obtain ⟨t, hfirst⟩ := execDrw_completes (s := s.nextDraw.beginCycle none) hlegal
  obtain ⟨hlegal', hcovers⟩ := execDrw_keeps_sprite hx hy hfirst
  obtain ⟨u, hsecond⟩ := execDrw_completes (s := t.nextDraw.beginCycle none) hlegal'
  obtain ⟨hflag, hmet⟩ := execDrw_vf hsecond
  have hagain := execDrw_collides_again hfirst hcovers
  refine ⟨u, ?_, fun py px => ?_, hflag, hmet.trans hagain⟩
  · calc runHandlers [.drw x y n, .drw x y n] s
        = runHandlers [.drw x y n] t := runHandlers_cons_of_next (ins := .drw x y n) hfirst
      _ = .next u := runHandlers_cons_of_next (ins := .drw x y n) hsecond
  · calc u.pixel py px
        = (t.pixel py px ^^ spriteCovers t (t.reg x) (t.reg y) n py.val px.val) := execDrw_pixel hsecond py px
      _ = s.pixel py px := by
        rw [hcovers, execDrw_pixel hfirst, Bool.xor_assoc, Bool.xor_self, Bool.xor_false, State.pixel_beginCycle,
          State.pixel_nextDraw]

/-! ### A font glyph at the screen's origin (spec/43_index_memory.md R107, spec/95_test_vectors.md E10) -/

/-- Drawn from (0, 0), a sprite whose row addresses are cells is legal: its at most 15 rows and 8 columns fit the screen. -/
theorem drawLegal_origin {s : State} {n : Nibble} (h : ∀ row < n.toNat, s.effAddr row ≤ 4095) : DrawLegal s 0 0 n := by
  intro row hrow
  have hn : n.toNat < 16 := n.isLt
  have hcol : originColumn 0 = 0 := rfl
  have hrow0 : originRow 0 = 0 := rfl
  exact ⟨h row hrow, fun col hc _ => by omega⟩

theorem spriteCovers_origin (s : State) (n : Nibble) (py px : Nat) :
    spriteCovers s 0 0 n py px = (decide (py < n.toNat ∧ px < 8) && spriteBit (s.mem.get (s.effAddr py)) px) := by
  simp [spriteCovers, originColumn, originRow]

/-- Reset memory holds FONT from 0x50 on, five bytes to a glyph (spec/10_state.md R30). -/
theorem unlisted_glyph (d : Fin 16) {row : Nat} (h : row < 5) :
    Memory.unlisted (0x50 + 5 * d.val + row) = Config.font (5 * d.val + row) := by
  have hd := d.isLt
  unfold Memory.unlisted Config.fontBase Config.fontSize
  rw [if_pos (by omega)]
  congr 1
  omega

/-- Settles O59: a blank screen XORed with the glyph is the glyph, and a blank screen has no pixel to collide with. -/
theorem glyphIsDrawnFromFont : Obligations.GlyphIsDrawnFromFont := by
  intro d x y s hmem hindex hx hy hblank
  have hd := d.isLt
  have haddr (row : Nat) : s.effAddr row = 0x50 + 5 * d.val + row := congrArg (· + row) hindex
  have hlegal : DrawLegal s (s.reg x) (s.reg y) 5 := by
    rw [hx, hy]
    refine drawLegal_origin fun row (hrow : row < 5) => ?_
    rw [haddr]
    omega
  obtain ⟨t, h⟩ := execDrw_completes hlegal
  refine ⟨t, h, execDrw_vf_of_not_collides h fun ⟨py, px, _, hon⟩ => ?_, fun py px => ?_⟩
  · exact absurd hon (by simp [hblank])
  · rw [execDrw_pixel h, hblank, Bool.false_xor, hx, hy, spriteCovers_origin, hmem, Memory.get_nil, haddr]
    by_cases hrow : py.val < 5
    · rw [unlisted_glyph d hrow]
      rfl
    · simp [hrow]

end Sys2Proof.Machine
end

section
/-! The keypad and timer instructions (spec/45_keys_timers.md R117 to R122): the skips on a key for each V[X], the wait for a
key for each keypad, and the transfers of the two timers. -/

namespace Sys2Proof.Machine

/-! ### Skips on a key (R117, R118) -/

/-- EX9E and EXA1 with V[X] a key index: the skip that the key's level asks for, which changes pc alone. -/
theorem exec_of_skipOnKey {ins : Instr} {b : Byte} {c : Key → Bool} {k : Key} {p : Word} {s : State}
    (h : exec ins s = orOutOfBounds ins s ((keyOf b).map fun k => s.skipIf (c k))) (hk : b.toNat = k.val)
    (hp : p = if c k then s.pc + 2 else s.pc) : ∃ t, exec ins s = .next t ∧ t.pc = p ∧ SameOutside [.pc] s t := by
  refine ⟨s.skipIf (c k), ?_, ?_, sameOutside_skipIf s (c k)⟩
  · rw [h, keyOf_eq_some.2 hk, Option.map_some, orOutOfBounds_some]
  · rw [State.skipIf_eq, State.setPc_pc, hp]

/-- EX9E and EXA1 with V[X] above 15: no key has that index (decision D11). -/
theorem skipOnKey_outOfBounds (ins : Instr) {b : Byte} (c : Key → Bool) (s : State) (h : b.toNat > 15) :
    orOutOfBounds ins s ((keyOf b).map fun k => s.skipIf (c k)) =
      .fault (.outOfBounds (s.pc - 2) (some (encode ins))) := by
  rw [keyOf_eq_none.2 h, Option.map_none, orOutOfBounds_none]

/-- Settles O51: V[X] names a key, whose level each skip tests, or it names none. -/
theorem skipsOnKey : Obligations.SkipsOnKey := fun x s =>
  ⟨fun k hk => ⟨exec_of_skipOnKey (ins := .skp x) rfl hk rfl,
      exec_of_skipOnKey (ins := .sknp x) rfl hk (by cases s.keyPressed k <;> rfl)⟩,
    fun habove => ⟨skipOnKey_outOfBounds (.skp x) _ s habove, skipOnKey_outOfBounds (.sknp x) _ s habove⟩⟩

/-! ### The wait for a key (R120) -/

/-- With a key pressed, FX0A writes V[X] alone. -/
theorem execLdVxK_of_lowestKey {x : Reg} {k : Key} {s : State} (h : s.lowestKey = some k) :
    execLdVxK x s = .next (s.setReg x (BitVec.ofNat 8 k.val)) := by
  unfold execLdVxK
  rw [h]

/-- With no key pressed, FX0A writes pc alone: the same instruction runs in the next cycle (decision D20). -/
theorem execLdVxK_of_noKey {x : Reg} {s : State} (h : s.lowestKey = none) :
    execLdVxK x s = .next (s.setPc (s.pc - 2)) := by
  unfold execLdVxK
  rw [h]

theorem key_toByte_toNat (k : Key) : (BitVec.ofNat 8 k.val).toNat = k.val :=
  Nat.mod_eq_of_lt (k.isLt.trans (by decide))

/-- Settles O52: the first match of the ascending search is the lowest pressed key, and it fails with no key pressed. -/
theorem waitTakesLowestKey : Obligations.WaitTakesLowestKey := by
  refine fun x s => ⟨fun k hpressed hlower => ?_, fun hnone => ?_⟩
  · have hkey : s.lowestKey = some k := State.lowestKey_eq_some.2 ⟨hpressed, hlower⟩
    obtain ⟨t, h, hx, hframe⟩ := exec_of_setReg (ins := .ldVxK x) (execLdVxK_of_lowestKey hkey)
    exact ⟨t, h, by rw [hx, key_toByte_toNat], hframe⟩
  · exact ⟨_, execLdVxK_of_noKey (State.lowestKey_eq_none.2 hnone), rfl, sameOutside_pc s _⟩

/-! ### The timers (R119, R121, R122) -/

/-- Settles O53: FX07 writes V[X] alone, and FX15 and FX18 write one timer alone. -/
theorem timerTransfers : Obligations.TimerTransfers := fun x s =>
  ⟨exec_of_setReg (ins := .ldVxDt x) rfl, ⟨_, rfl, rfl, sameOutside_dt s _⟩, ⟨_, rfl, rfl, sameOutside_st s _⟩⟩

end Sys2Proof.Machine
end

section
/-! Failures and the host's operations (spec/60_exceptions.md R123 to R137): when each handler completes and what it raises
when it does not, what a failed operation reports, why it fails again, and what TICK, LOAD and KEY_SET do. -/

namespace Sys2Proof.Machine

/-! ### When a handler completes (R126) -/

/-- 00EE (spec/41_flow.md R79): with SP from 1 to 16, the entry to return to exists. -/
theorem execRet_completes_iff {s : State} (hsp : s.sp.toNat ≤ 16) : (∃ t, execRet s = .next t) ↔ s.sp ≠ 0 := by
  constructor
  · rintro ⟨t, h⟩
    obtain ⟨hne, -⟩ := execRet_eq_next.1 h
    exact hne
  · intro hne
    obtain ⟨t, h, -⟩ := execRet_pops (Nat.pos_of_ne_zero fun h0 => hne (BitVec.eq_of_toNat_eq h0)) hsp
    exact ⟨t, h⟩

/-- 2NNN (R81): with SP below 16, the entry to push exists. -/
theorem execCall_completes_iff {nnn : Addr} {s : State} (hsp : s.sp.toNat ≤ 16) :
    (∃ t, execCall nnn s = .next t) ↔ s.sp ≠ 16 := by
  constructor
  · rintro ⟨t, h⟩ hfull
    obtain ⟨hlt, -⟩ := execCall_eq_next.1 h
    rw [hfull] at hlt
    exact absurd hlt (by decide)
  · intro hne
    obtain ⟨t, h, -⟩ := execCall_pushes nnn (hsp.lt_of_ne fun h16 => hne (BitVec.eq_of_toNat_eq h16))
    exact ⟨t, h⟩

theorem execDrw_completes_iff {x y : Reg} {n : Nibble} {s : State} :
    (∃ t, execDrw x y n s = .next t) ↔ DrawLegal s (s.reg x) (s.reg y) n := by
  refine ⟨fun ⟨t, h⟩ => ?_, execDrw_completes⟩
  obtain ⟨hlegal, -⟩ := execDrw_eq_next h
  exact hlegal

/-- A handler that can only fail OutOfBounds completes exactly when its work gives a state. -/
theorem orOutOfBounds_completes_iff {ins : Instr} {s : State} {o : Option State} :
    (∃ t, orOutOfBounds ins s o = .next t) ↔ o ≠ none := by
  simp only [orOutOfBounds_eq_next, Option.ne_none_iff_exists']

/-- EX9E and EXA1 (spec/45_keys_timers.md R117, R118): V[X] must name a key. -/
theorem skipOnKey_completes_iff {ins : Instr} {b : Byte} {c : Key → Bool} {s : State} :
    (∃ t, orOutOfBounds ins s ((keyOf b).map fun k => s.skipIf (c k)) = .next t) ↔ b.toNat ≤ 15 := by
  rw [orOutOfBounds_completes_iff, ne_eq, Option.map_eq_none_iff, keyOf_eq_none, not_lt]

/-- FX33 and FX55 (spec/43_index_memory.md R108, R109): the last cell stored to must exist. -/
theorem storeBytes_completes_iff {ins : Instr} {bytes : List Byte} {k : Nat} {s : State} (hlen : bytes.length = k + 1) :
    (∃ t, orOutOfBounds ins s (storeFrom 0 bytes s) = .next t) ↔ s.effAddr k ≤ 4095 := by
  have hne : bytes ≠ [] := List.ne_nil_of_length_eq_add_one hlen
  constructor
  · rintro ⟨t, h⟩
    by_contra hpast
    rw [storeBytes_outOfBounds ins hne (by unfold State.effAddr at hpast; omega)] at h
    cases h
  · intro hfit
    exact storeBytes_completes ins (by unfold State.effAddr at hfit; omega)

/-- FX65 (R110): the cell of V[X] must exist. -/
theorem execLdVxMem_completes_iff {x : Reg} {s : State} :
    (∃ t, execLdVxMem x s = .next t) ↔ s.effAddr x.val ≤ 4095 := by
  refine ⟨fun ⟨t, h⟩ => ?_, execLdVxMem_completes⟩
  by_contra hpast
  rw [execLdVxMem_outOfBounds (Nat.lt_of_not_le hpast)] at h
  cases h

/-- FX0A (spec/45_keys_timers.md R120) completes with a key pressed and with none. -/
theorem execLdVxK_completes (x : Reg) (s : State) : ∃ t, execLdVxK x s = .next t := by
  cases hk : s.lowestKey with
  | some k => exact ⟨_, execLdVxK_of_lowestKey hk⟩
  | none => exact ⟨_, execLdVxK_of_noKey hk⟩

/-- Settles O14: each handler that can fail by its own condition; the others always answer a next state. -/
theorem completesExactlyWhen : Obligations.CompletesExactlyWhen := by
  intro ins s hsp
  cases ins with
  | ret => exact execRet_completes_iff hsp
  | call => exact execCall_completes_iff hsp
  | drw => exact execDrw_completes_iff
  | skp | sknp => exact skipOnKey_completes_iff
  | ldBVx => exact storeBytes_completes_iff rfl
  | ldMemVx x => exact storeBytes_completes_iff (map_regsUpTo_length x s)
  | ldVxMem => exact execLdVxMem_completes_iff
  | ldVxK x => exact iff_of_true (execLdVxK_completes x s) trivial
  | _ => exact iff_of_true ⟨_, rfl⟩ trivial

/-! ### What a handler raises (R126) -/

/-- 00EE underflows at SP = 0 (decision D5) and raises nothing else with SP at most 16. -/
theorem execRet_fault_eq {s : State} {f : Fault} (hsp : s.sp.toNat ≤ 16) (h : execRet s = .fault f) :
    f = .stackUnderflow (s.pc - 2) (encode .ret) := by
  by_cases h0 : s.sp = 0
  · rw [execRet_underflow (congrArg BitVec.toNat h0)] at h
    exact (Host.Outcome.fault.inj h).symm
  · obtain ⟨t, ht⟩ := (execRet_completes_iff hsp).2 h0
    rw [ht] at h
    cases h

/-- 2NNN overflows at SP = 16 (decision D5) and raises nothing else with SP at most 16. -/
theorem execCall_fault_eq {nnn : Addr} {s : State} {f : Fault} (hsp : s.sp.toNat ≤ 16)
    (h : execCall nnn s = .fault f) : f = .stackOverflow (s.pc - 2) (encode (.call nnn)) := by
  by_cases h16 : s.sp = 16
  · rw [execCall_overflow (congrArg BitVec.toNat h16)] at h
    exact (Host.Outcome.fault.inj h).symm
  · obtain ⟨t, ht⟩ := (execCall_completes_iff hsp).2 h16
    rw [ht] at h
    cases h

theorem orOutOfBounds_fault_eq {ins : Instr} {s : State} {o : Option State} {f : Fault}
    (h : orOutOfBounds ins s o = .fault f) : f = .outOfBounds (s.pc - 2) (some (encode ins)) := by
  obtain ⟨-, hf⟩ := orOutOfBounds_eq_fault.1 h
  exact hf

/-- Settles O13: the two stack instructions raise their own kind, six raise OutOfBounds, and the others always answer a next
state. -/
theorem eachHandlerRaisesOneKind : Obligations.EachHandlerRaisesOneKind := by
  intro ins s f hsp h
  cases ins with
  | ret => exact congrArg some (execRet_fault_eq hsp h).symm
  | call => exact congrArg some (execCall_fault_eq hsp h).symm
  | drw | skp | sknp | ldBVx | ldMemVx | ldVxMem => exact congrArg some (orOutOfBounds_fault_eq h).symm
  | ldVxK => exact absurd h execLdVxK_ne_fault
  | _ => cases h

/-! ### No refusal (R131, R134) -/

theorem execRet_ne_refused {s : State} {m : Refusal} : execRet s ≠ .refused m := by
  unfold execRet
  split
  · simp [fail]
  · exact orOutOfBounds_ne_refused

theorem execCall_ne_refused {nnn : Addr} {s : State} {m : Refusal} : execCall nnn s ≠ .refused m := by
  unfold execCall
  split
  · simp [fail]
  · exact orOutOfBounds_ne_refused

theorem exec_ne_refused {ins : Instr} {s : State} {m : Refusal} : exec ins s ≠ .refused m := by
  intro h
  cases ins with
  | ret => exact execRet_ne_refused h
  | call => exact execCall_ne_refused h
  | drw | skp | sknp | ldBVx | ldMemVx | ldVxMem => exact orOutOfBounds_ne_refused h
  | ldVxK x =>
    obtain ⟨t, ht⟩ := execLdVxK_completes x s
    cases ht.symm.trans h
  | _ => cases h

/-- A cycle fails at the fetch or at the decode, or ends as its handler does. -/
theorem cycle_ne_refused {r : Option Byte} {s : State} {m : Refusal} : cycle r s ≠ .refused m := by
  unfold cycle
  split
  · simp
  · split
    · simp
    · exact exec_ne_refused

theorem perform_ne_refused {op : HostOp} {s : State} {m : Refusal} : perform op s ≠ .refused m := by
  intro h
  cases op with
  | cycle => exact cycle_ne_refused h
  | load bytes =>
    have hload : loadProgram bytes s = .refused m := h
    rw [loadProgram_eq] at hload
    split at hload <;> cases hload
  | reset | tick | keySet => cases h

/-- Settles O15: a step is a cycle or a listed operation, and neither is refused. -/
theorem stepIsNeverRefused : Obligations.StepIsNeverRefused := by
  intro s m h
  cases hops : s.hostOps with
  | nil => exact cycle_ne_refused ((step_of_nil hops).symm.trans h)
  | cons => exact perform_ne_refused ((step_of_cons hops).symm.trans h)

/-! ### The report of a failure (R124) -/

/-- A failed cycle reports the pc before it and the word its fetch gave, if it gave one: a handler reports pc less the
advance, and its instruction's encoding is the word it was decoded from. -/
theorem cycle_fault_report {r : Option Byte} {s : State} {f : Fault} (h : cycle r s = .fault f) :
    faultPc f = some s.pc ∧ faultWord f = s.fetchWord := by
  obtain ⟨hfetch, rfl⟩ | ⟨w, hfetch, -, rfl⟩ | ⟨w, ins, hfetch, hdecode, hexec⟩ := cycle_eq_fault h
  · exact ⟨rfl, hfetch.symm⟩
  · exact ⟨rfl, hfetch.symm⟩
  · obtain ⟨hpc, hword⟩ := exec_fault_report hexec
    rw [hpc, hword, hfetch, encodeOfDecode w ins hdecode, State.beginCycle_pc, pc_add_sub]
    exact ⟨rfl, rfl⟩

/-- The only kind that reports no pc is code 5 (R123; decision D10). -/
theorem faultCode_mem_of_faultPc {f : Fault} {p : Word} (h : faultPc f = some p) : faultCode f ∈ [1, 2, 3, 4] := by
  cases f with
  | romTooLarge => cases h
  | _ => simp [faultCode]

/-- LOAD's one failure (R136). -/
theorem loadProgram_fault_eq {bytes : List Byte} {s : State} {f : Fault} (h : loadProgram bytes s = .fault f) :
    f = .romTooLarge := by
  rw [loadProgram_eq] at h
  split at h
  · cases h
  · exact (Host.Outcome.fault.inj h).symm

/-- Settles O10: a failed CYCLE by `cycle_fault_report`, a failed LOAD by its one kind. -/
theorem failureReport : Obligations.FailureReport := by
  refine ⟨fun b s f h => ?_, fun bytes s f h => ?_, fun s => ⟨_, rfl⟩, fun s => ⟨_, rfl⟩, fun s k p => ⟨_, rfl⟩⟩
  · obtain ⟨hpc, hword⟩ := cycle_fault_report (r := some b) h
    exact ⟨faultCode_mem_of_faultPc hpc, hpc, hword⟩
  · obtain rfl := loadProgram_fault_eq h
    exact ⟨rfl, rfl, rfl⟩

/-! ### The same failure again (R125, R128, spec/40_cycle.md R72) -/

/-- A handler that fails does so whatever the input: CXKK, which reads it, never fails. -/
theorem exec_fault_withInput {ins : Instr} {s : State} {f : Fault} (h : exec ins s = .fault f) (r : Option Byte)
    (d : Nat) : exec ins (s.withInput r d) = .fault f := by
  cases ins with
  | rnd => cases h
  | _ =>
    rw [exec_ignoresInput (by simp [Instr.mnemonic]) r d s, h]
    rfl

/-- The fetch and the decode come before the input byte is read, and a failing handler does not read it. -/
theorem cycle_fault_of_any_input {r : Option Byte} {s : State} {f : Fault} (h : cycle r s = .fault f)
    (r' : Option Byte) : cycle r' s = .fault f := by
  obtain ⟨hfetch, rfl⟩ | ⟨w, hfetch, hdecode, rfl⟩ | ⟨w, ins, hfetch, hdecode, hexec⟩ := cycle_eq_fault h
  · exact cycle_of_fetch_none hfetch
  · exact cycle_of_decode_none hfetch hdecode
  · exact (cycle_decoded hfetch hdecode).trans (exec_fault_withInput hexec r' s.draws)

/-- Settles O11: the state is the one before the failure, so the next CYCLE starts from it, with another input byte. -/
theorem failedCycleFailsAgain : Obligations.FailedCycleFailsAgain := by
  refine ⟨fun op s f => State.after_of_fault, fun b b' s f h => ?_⟩
  rw [State.after_of_fault h]
  exact cycle_fault_of_any_input (r := some b) h (some b')

/-! ### TICK, LOAD and KEY_SET (R135 to R137) -/

/-- Settles O54: TICK writes the two timers alone, each by `timerTick`. -/
theorem tickDecrementsTimers : Obligations.TickDecrementsTimers := fun s =>
  ⟨s.tick, rfl, timerTick_toNat s.dt, timerTick_toNat s.st, sameOutside_timers s _ _⟩

/-- What an address reads after LOAD of a program that fits: the program's bytes from 0x200 on, and all others as
before. -/
theorem load_loadProgram {bytes : List Byte} {s t : State} (h : loadProgram bytes s = .next t) (a : Nat) :
    t.load a = if 0x200 ≤ a ∧ a < 0x200 + bytes.length then bytes[a - 0x200]? else s.load a := by
  obtain ⟨hfit, rfl⟩ := loadProgram_eq_next.1 h
  unfold Config.maxRom at hfit
  rw [State.load_putBytes]
  unfold Config.progBase Config.memSize
  exact if_congr (by omega) rfl rfl

/-- Settles O55: LOAD writes memory alone, which `load_loadProgram` reads; over 3584 bytes its length check fails. -/
theorem loadCopiesProgram : Obligations.LoadCopiesProgram := by
  refine fun bytes s => ⟨fun hfit => ?_, fun hlong => if_pos hlong⟩
  have h := (loadProgram_eq_next (s := s)).2 ⟨hfit, rfl⟩
  refine ⟨_, h, fun k hk => ?_, fun a ha => ?_, sameOutside_mem s _⟩
  · rw [load_loadProgram h, if_pos (by omega), Nat.add_sub_cancel_left]
  · rw [load_loadProgram h, if_neg (by omega)]

/-- Settles O56: KEY_SET writes the keypad alone, and `State.keyPressed_setKey` reads it. -/
theorem keySetWritesOneKey : Obligations.KeySetWritesOneKey := fun k p s =>
  ⟨s.setKey k p, rfl, by rw [State.keyPressed_setKey, if_pos rfl],
    fun j hj => by rw [State.keyPressed_setKey, if_neg hj], _, rfl⟩

end Sys2Proof.Machine
end

section
/-! A fresh boot (spec/70_reset_and_hazards.md R148): RESET sets pc to the address that LOAD copies the program to. -/

namespace Sys2Proof.Machine

theorem loadProgram_frame {bytes : List Byte} {s t : State} (h : loadProgram bytes s = .next t) :
    SameOutside [.mem] s t := by
  obtain ⟨-, rfl⟩ := loadProgram_eq_next.1 h
  exact sameOutside_mem s _

theorem load_loadProgram_byte {bytes : List Byte} {s t : State} (h : loadProgram bytes s = .next t) {k : Nat}
    (hk : k < bytes.length) : t.load (0x200 + k) = bytes[k]? := by
  rw [load_loadProgram h, if_pos (by omega), Nat.add_sub_cancel_left]

/-- With pc at the program base, LOAD of at least one word makes the program's first word the next one fetched. -/
theorem fetchWord_loadProgram {b0 b1 : Byte} {rest : List Byte} {s t : State} (hpc : s.pc = 0x200)
    (h : loadProgram (b0 :: b1 :: rest) s = .next t) : t.fetchWord = some (wordOfBytes b0 b1) := by
  have htpc : t.pc = 0x200 := ((loadProgram_frame h).pc (by simp)).trans hpc
  have hhi : t.load 0x200 = some b0 := load_loadProgram_byte h (k := 0) (by simp)
  have hlo : t.load 0x201 = some b1 := load_loadProgram_byte h (k := 1) (by simp)
  exact State.fetchWord_of_load (by rw [htpc]; decide) (by rw [htpc]; exact hhi) (by rw [htpc]; exact hlo)

/-- Settles O58: LOAD leaves pc at its reset value 0x200, where `load_loadProgram_byte` reads the program's first
bytes. -/
theorem freshBootFetchesProgram : Obligations.FreshBootFetchesProgram := fun _ _ _ _ h =>
  ⟨fetchWord_loadProgram rfl h, loadProgram_frame h⟩

end Sys2Proof.Machine
end
